-- ==== Sys2Proof/Word.lean ====
section
/-! DEFINITION. The bit-vector types of CW-ECB58: what the spec treats as bits, and nothing else
(00_scope.md R5, R11). -/

namespace Sys2Proof

/-- One byte of `BUF`, and the width of `ERRCODE` and `RLEN` (10_state.md R34, R36, R40). -/
abbrev Byte := BitVec 8

/-- A command word and the width of every host access (30_encoding.md R90, 20_memory.md R62). -/
abbrev Word := BitVec 32

/-- A byte address of the host window (20_memory.md R60, R62). -/
abbrev BusAddr := BitVec 12

/-- What a `K` register holds: 256 bits, no other constraint (10_state.md R25). -/
abbrev Scalar := BitVec 256

end Sys2Proof
end

