-- ==== Sys2Proof/Syntax.lean ====
section
/-! DEFINITION. The command set: one constructor per row of spec/opcode_table.json (30_encoding.md R95), with the
operands of its format (R93). Register operands are indices of their own file (R26, R94); offsets and lengths are
counts of bytes. -/

namespace Sys2Proof

/-- Index of a field-element register `F0..F7` (10_state.md R21). -/
abbrev FReg := Fin 8

/-- Index of an integer register `K0..K3` (10_state.md R25). -/
abbrev KReg := Fin 4

/-- Index of a point register `Q0..Q3` (10_state.md R22). -/
abbrev QReg := Fin 4

/-- The 21 commands. Operands stand in the order of the fields `A`, `B`, `C` (30_encoding.md R93, R99). -/
inductive Instr where
  /-- `NOP` (R210) -/
  | nop
  /-- `FADD Fd, Fa, Fb` (R130) -/
  | fadd (d a b : FReg)
  /-- `FSUB Fd, Fa, Fb` (R131) -/
  | fsub (d a b : FReg)
  /-- `FMUL Fd, Fa, Fb` (R132) -/
  | fmul (d a b : FReg)
  /-- `FDIV Fd, Fa, Fb` (R133) -/
  | fdiv (d a b : FReg)
  /-- `FPOW Fd, Fa, Ke` (R134) -/
  | fpow (d a : FReg) (e : KReg)
  /-- `FINV Fd, Fa` (R135) -/
  | finv (d a : FReg)
  /-- `FEQ Fa, Fb` (R136) -/
  | feq (a b : FReg)
  /-- `PADD Qd, Qa, Qb` (R157) -/
  | padd (d a b : QReg)
  /-- `PDBL Qd, Qa` (R159) -/
  | pdbl (d a : QReg)
  /-- `SMUL Qd, Qb, Kk` (R175) -/
  | smul (d b : QReg) (k : KReg)
  /-- `PEQ Qa, Qb` (R161) -/
  | peq (a b : QReg)
  /-- `LDG Qd` (R160) -/
  | ldg (d : QReg)
  /-- `LDF Fr, off` (R211) -/
  | ldf (r : FReg) (off : Nat)
  /-- `STF Fr, off` (R212) -/
  | stf (r : FReg) (off : Nat)
  /-- `LDK Kr, off` (R213) -/
  | ldk (r : KReg) (off : Nat)
  /-- `STK Kr, off` (R214) -/
  | stk (r : KReg) (off : Nat)
  /-- `LDP Qr, off` (R217) -/
  | ldp (r : QReg) (off : Nat)
  /-- `STP Qr, off` (R218) -/
  | stp (r : QReg) (off : Nat)
  /-- `B58ENC dst, src, len` (R194) -/
  | b58enc (dst src len : Nat)
  /-- `B58CHK dst, src, len` (R195) -/
  | b58chk (dst src len : Nat)
  deriving DecidableEq, Repr

end Sys2Proof
end

