-- ==== Sys2Proof/WellFormed.lean ====
section
/-! DEFINITION. Which terms of `Instr` an encoding can name: offsets and lengths fit the 8-bit field that holds them
(30_encoding.md R92, R94). Register indices are in range by their types (log 17). -/

namespace Sys2Proof

/-- A byte offset or a byte count fits its 8-bit field, `0..255` (30_encoding.md R94). -/
def fitsField (n : Nat) : Bool := decide (n ≤ 255)

/-- The well-formed instructions: every offset and length is a value of its field. -/
def WellFormed : Instr → Bool
  | .nop => true
  | .fadd _ _ _ => true
  | .fsub _ _ _ => true
  | .fmul _ _ _ => true
  | .fdiv _ _ _ => true
  | .fpow _ _ _ => true
  | .finv _ _ => true
  | .feq _ _ => true
  | .padd _ _ _ => true
  | .pdbl _ _ => true
  | .smul _ _ _ => true
  | .peq _ _ => true
  | .ldg _ => true
  | .ldf _ off => fitsField off
  | .stf _ off => fitsField off
  | .ldk _ off => fitsField off
  | .stk _ off => fitsField off
  | .ldp _ off => fitsField off
  | .stp _ off => fitsField off
  | .b58enc dst src len => fitsField dst && fitsField src && fitsField len
  | .b58chk dst src len => fitsField dst && fitsField src && fitsField len

end Sys2Proof
end

