-- ==== Sys2Proof/Decode.lean ====
section
/-! DEFINITION. The decoder of 30_encoding.md, total on every word and rejecting by name (R96), the encoder, written
from the same formats (R92, R93), and the mask and match table of R95 as data. -/

namespace Sys2Proof

/-- Why a word is `Illegal`: the three causes of 30_encoding.md R96. The spec gives them one fault, so which name a word with
several causes gets cannot be observed (DESIGN CHOICE, safe: log 14). -/
inductive Illegal where
  /-- the `OP` value is not in the table -/
  | opcode
  /-- a register index is out of range -/
  | registerIndex
  /-- a field the format does not use is not zero -/
  | unusedField
  deriving DecidableEq, Repr

/-- `OP = w[31:24]` (30_encoding.md R92). -/
def opField (w : Word) : Nat := (w.extractLsb' 24 8).toNat

/-- `A = w[23:16]` (30_encoding.md R92). -/
def aField (w : Word) : Nat := (w.extractLsb' 16 8).toNat

/-- `B = w[15:8]` (30_encoding.md R92). -/
def bField (w : Word) : Nat := (w.extractLsb' 8 8).toNat

/-- `C = w[7:0]` (30_encoding.md R92). -/
def cField (w : Word) : Nat := (w.extractLsb' 0 8).toNat

/-- An `F` field must be `0..7` (30_encoding.md R94). -/
def decodeF (v : Nat) : Except Illegal FReg :=
  if h : v < 8 then .ok ⟨v, h⟩ else .error .registerIndex

/-- A `K` or `Q` field must be `0..3` (30_encoding.md R94). -/
def decodeKQ (v : Nat) : Except Illegal (Fin 4) :=
  if h : v < 4 then .ok ⟨v, h⟩ else .error .registerIndex

/-- A field the format does not use must be zero (30_encoding.md R92, R96); the rest of the decoding follows. -/
def unused (v : Nat) (rest : Except Illegal Instr) : Except Illegal Instr :=
  if v = 0 then rest else .error .unusedField

/-- Format `Z` (30_encoding.md R93). -/
def formatZ (w : Word) (i : Instr) : Except Illegal Instr :=
  unused (aField w) (unused (bField w) (unused (cField w) (.ok i)))

/-- Format `FFF` (30_encoding.md R93). -/
def formatFFF (w : Word) (mk : FReg → FReg → FReg → Instr) : Except Illegal Instr :=
  (decodeF (aField w)).bind fun d => (decodeF (bField w)).bind fun a =>
    (decodeF (cField w)).bind fun b => .ok (mk d a b)

/-- Format `FFK` (30_encoding.md R93). -/
def formatFFK (w : Word) (mk : FReg → FReg → KReg → Instr) : Except Illegal Instr :=
  (decodeF (aField w)).bind fun d => (decodeF (bField w)).bind fun a =>
    (decodeKQ (cField w)).bind fun e => .ok (mk d a e)

/-- Format `FF` (30_encoding.md R93). -/
def formatFF (w : Word) (mk : FReg → FReg → Instr) : Except Illegal Instr :=
  (decodeF (aField w)).bind fun d => (decodeF (bField w)).bind fun a =>
    unused (cField w) (.ok (mk d a))

/-- Format `cFF` (30_encoding.md R93). -/
def formatCFF (w : Word) (mk : FReg → FReg → Instr) : Except Illegal Instr :=
  unused (aField w) ((decodeF (bField w)).bind fun a => (decodeF (cField w)).bind fun b => .ok (mk a b))

/-- Formats `QQQ` and `QQK`, whose three indices have the same range (30_encoding.md R93). -/
def formatQQQ (w : Word) (mk : Fin 4 → Fin 4 → Fin 4 → Instr) : Except Illegal Instr :=
  (decodeKQ (aField w)).bind fun d => (decodeKQ (bField w)).bind fun a =>
    (decodeKQ (cField w)).bind fun b => .ok (mk d a b)

/-- Format `QQ` (30_encoding.md R93). -/
def formatQQ (w : Word) (mk : QReg → QReg → Instr) : Except Illegal Instr :=
  (decodeKQ (aField w)).bind fun d => (decodeKQ (bField w)).bind fun a =>
    unused (cField w) (.ok (mk d a))

/-- Format `cQQ` (30_encoding.md R93). -/
def formatCQQ (w : Word) (mk : QReg → QReg → Instr) : Except Illegal Instr :=
  unused (aField w) ((decodeKQ (bField w)).bind fun a => (decodeKQ (cField w)).bind fun b => .ok (mk a b))

/-- Format `Q` (30_encoding.md R93). -/
def formatQ (w : Word) (mk : QReg → Instr) : Except Illegal Instr :=
  (decodeKQ (aField w)).bind fun d => unused (bField w) (unused (cField w) (.ok (mk d)))

/-- Format `MF` (30_encoding.md R93). -/
def formatMF (w : Word) (mk : FReg → Nat → Instr) : Except Illegal Instr :=
  (decodeF (aField w)).bind fun r => unused (cField w) (.ok (mk r (bField w)))

/-- Formats `MK` and `MQ`, whose register indices have the same range (30_encoding.md R93). -/
def formatMKQ (w : Word) (mk : Fin 4 → Nat → Instr) : Except Illegal Instr :=
  (decodeKQ (aField w)).bind fun r => unused (cField w) (.ok (mk r (bField w)))

/-- Format `S`: no field is restricted (30_encoding.md R93, R96). -/
def formatS (w : Word) (mk : Nat → Nat → Nat → Instr) : Except Illegal Instr :=
  .ok (mk (aField w) (bField w) (cField w))

/-- The decoder (30_encoding.md R96), a total function of the word. -/
def decode (w : Word) : Except Illegal Instr :=
  match opField w with
  | 0x00 => formatZ w .nop
  | 0x10 => formatFFF w .fadd
  | 0x11 => formatFFF w .fsub
  | 0x12 => formatFFF w .fmul
  | 0x13 => formatFFF w .fdiv
  | 0x14 => formatFFK w .fpow
  | 0x15 => formatFF w .finv
  | 0x16 => formatCFF w .feq
  | 0x20 => formatQQQ w .padd
  | 0x21 => formatQQ w .pdbl
  | 0x22 => formatQQQ w .smul
  | 0x23 => formatCQQ w .peq
  | 0x24 => formatQ w .ldg
  | 0x30 => formatMF w .ldf
  | 0x31 => formatMF w .stf
  | 0x32 => formatMKQ w .ldk
  | 0x33 => formatMKQ w .stk
  | 0x34 => formatMKQ w .ldp
  | 0x35 => formatMKQ w .stp
  | 0x40 => formatS w .b58enc
  | 0x41 => formatS w .b58chk
  | _ => .error .opcode

/-- The decoder on a word numbered as spec/opcode_table.json numbers it: bit 0 least significant, which is the numbering of
30_encoding.md R91. Every row has 32 bits (R90); the bits above `nbits` are 0. -/
def decodeTableWord (nbits w : Nat) : Option Instr :=
  (decode (BitVec.ofNat 32 (w % 2 ^ nbits))).toOption

/-- A command word from its four 8-bit fields (30_encoding.md R92). -/
def packWord (op a b c : Nat) : Word :=
  BitVec.ofNat 8 op ++ BitVec.ofNat 8 a ++ BitVec.ofNat 8 b ++ BitVec.ofNat 8 c

/-- The opcode of a command (30_encoding.md R95). -/
def opcodeOf : Instr → Nat
  | .nop => 0x00
  | .fadd _ _ _ => 0x10
  | .fsub _ _ _ => 0x11
  | .fmul _ _ _ => 0x12
  | .fdiv _ _ _ => 0x13
  | .fpow _ _ _ => 0x14
  | .finv _ _ => 0x15
  | .feq _ _ => 0x16
  | .padd _ _ _ => 0x20
  | .pdbl _ _ => 0x21
  | .smul _ _ _ => 0x22
  | .peq _ _ => 0x23
  | .ldg _ => 0x24
  | .ldf _ _ => 0x30
  | .stf _ _ => 0x31
  | .ldk _ _ => 0x32
  | .stk _ _ => 0x33
  | .ldp _ _ => 0x34
  | .stp _ _ => 0x35
  | .b58enc _ _ _ => 0x40
  | .b58chk _ _ _ => 0x41

/-- The word of a well-formed command (30_encoding.md R92, R93, R95). -/
def encode (i : Instr) : Word :=
  match i with
  | .nop => packWord (opcodeOf i) 0 0 0
  | .fadd d a b => packWord (opcodeOf i) d a b
  | .fsub d a b => packWord (opcodeOf i) d a b
  | .fmul d a b => packWord (opcodeOf i) d a b
  | .fdiv d a b => packWord (opcodeOf i) d a b
  | .fpow d a e => packWord (opcodeOf i) d a e
  | .finv d a => packWord (opcodeOf i) d a 0
  | .feq a b => packWord (opcodeOf i) 0 a b
  | .padd d a b => packWord (opcodeOf i) d a b
  | .pdbl d a => packWord (opcodeOf i) d a 0
  | .smul d b k => packWord (opcodeOf i) d b k
  | .peq a b => packWord (opcodeOf i) 0 a b
  | .ldg d => packWord (opcodeOf i) d 0 0
  | .ldf r off => packWord (opcodeOf i) r off 0
  | .stf r off => packWord (opcodeOf i) r off 0
  | .ldk r off => packWord (opcodeOf i) r off 0
  | .stk r off => packWord (opcodeOf i) r off 0
  | .ldp r off => packWord (opcodeOf i) r off 0
  | .stp r off => packWord (opcodeOf i) r off 0
  | .b58enc dst src len => packWord (opcodeOf i) dst src len
  | .b58chk dst src len => packWord (opcodeOf i) dst src len

/-- One row of the opcode map of 30_encoding.md R95: the opcode, and the `match` and `mask` words. -/
structure Row where
  /-- the `OP` column -/
  op : Nat
  /-- the `match` column -/
  matchWord : Word
  /-- the `mask` column -/
  mask : Word
  deriving DecidableEq, Repr

/-- `w` is the row's command exactly when `w & mask = match` (30_encoding.md R95). -/
def rowAccepts (w : Word) (r : Row) : Bool := decide (w &&& r.mask = r.matchWord)

/-- The opcode map of 30_encoding.md R95, row by row. -/
def opcodeMap : List Row :=
  [⟨0x00, 0x00000000#32, 0xFFFFFFFF#32⟩,
   ⟨0x10, 0x10000000#32, 0xFFF8F8F8#32⟩,
   ⟨0x11, 0x11000000#32, 0xFFF8F8F8#32⟩,
   ⟨0x12, 0x12000000#32, 0xFFF8F8F8#32⟩,
   ⟨0x13, 0x13000000#32, 0xFFF8F8F8#32⟩,
   ⟨0x14, 0x14000000#32, 0xFFF8F8FC#32⟩,
   ⟨0x15, 0x15000000#32, 0xFFF8F8FF#32⟩,
   ⟨0x16, 0x16000000#32, 0xFFFFF8F8#32⟩] ++
  [⟨0x20, 0x20000000#32, 0xFFFCFCFC#32⟩,
   ⟨0x21, 0x21000000#32, 0xFFFCFCFF#32⟩,
   ⟨0x22, 0x22000000#32, 0xFFFCFCFC#32⟩,
   ⟨0x23, 0x23000000#32, 0xFFFFFCFC#32⟩,
   ⟨0x24, 0x24000000#32, 0xFFFCFFFF#32⟩] ++
  [⟨0x30, 0x30000000#32, 0xFFF800FF#32⟩,
   ⟨0x31, 0x31000000#32, 0xFFF800FF#32⟩,
   ⟨0x32, 0x32000000#32, 0xFFFC00FF#32⟩,
   ⟨0x33, 0x33000000#32, 0xFFFC00FF#32⟩,
   ⟨0x34, 0x34000000#32, 0xFFFC00FF#32⟩,
   ⟨0x35, 0x35000000#32, 0xFFFC00FF#32⟩,
   ⟨0x40, 0x40000000#32, 0xFF000000#32⟩,
   ⟨0x41, 0x41000000#32, 0xFF000000#32⟩]

end Sys2Proof
end

