-- ==== Sys2Proof/Config.lean ====
section
/-! DEFINITION. What is fixed for the block: the parameters of 00_scope.md R5, the curve constants of R6, and
the one open parameter, the 256-bit hash of R9. -/

namespace Sys2Proof.Config

/-- The curve prime (00_scope.md R6). PRESUMED (the spec marks it general knowledge): log 10, unsafe if a digit is wrong. -/
def P : Nat := 0xFFFFFFFFFFFFFFFFFFFFFFFFFFFFFFFFFFFFFFFFFFFFFFFFFFFFFFFEFFFFFC2F

/-- The group order (00_scope.md R6). PRESUMED: log 10. -/
def N : Nat := 0xFFFFFFFFFFFFFFFFFFFFFFFFFFFFFFFEBAAEDCE6AF48A03BBFD25E8CD0364141

/-- The generator's x coordinate (00_scope.md R6). PRESUMED: log 10. -/
def Gx : Nat := 0x79BE667EF9DCBBAC55A06295CE870B07029BFCDB2DCE28D959F2815B16F81798

/-- The generator's y coordinate (00_scope.md R6). PRESUMED: log 10. -/
def Gy : Nat := 0x483ADA7726A3C4655DA4FBFC0E1108A8FD17B448A68554199C47D08FFB10D4B8

/-- The identification word, ASCII `SEK1` (00_scope.md R2, 10_state.md R31). -/
def idWord : Word := 0x53454B31#32

/-- Bytes of the scratch buffer (00_scope.md R5 `BUFSZ`). -/
def bufSize : Nat := 256

/-- Most bytes the base-58 converter accepts (00_scope.md R5 `LMAX`). -/
def lMax : Nat := 64

/-- Most payload bytes `B58CHK` accepts (00_scope.md R5 `CHKMAX`). -/
def chkMax : Nat := 60

/-- Entries of a doubling table (00_scope.md R5 `TBLN`). -/
def tableLength : Nat := 256

/-- `HASH256`, the open parameter (00_scope.md R9, decision D26): a total, deterministic function from byte strings to
exactly 32 bytes. A FREE VALUE: it has no body, so no proof can see what it is (log 9, safe). -/
opaque hash256 : List Byte → Vector Byte 32

end Sys2Proof.Config
end

