-- ==== Sys2Proof/Machine/State.lean ====
section
/-! DEFINITION. The state of CW-ECB58 as plain data (10_state.md R20 to R47): the values its registers hold, its
fault codes, the host's events, the state record and its value at reset. -/

namespace Sys2Proof.Machine

/-- A field element modulo the curve prime: `0 ≤ value < P` (00_scope.md R15, 10_state.md R21). -/
abbrev Fe := Fin Config.P

/-- A point: an explicit tag, never the pair `(0, 0)` for infinity (00_scope.md R15, 10_state.md R22). -/
inductive Point where
  /-- the point at infinity -/
  | infinity
  /-- a pair of reduced coordinates, on the curve or not (41_point.md R156) -/
  | finite (x y : Fe)
  deriving DecidableEq, Repr

/-- The fault codes of 60_exceptions.md R231. No command raises `domainMismatch` (R232) or `ioFailure` (R235). -/
inductive FaultCode where
  /-- code 1: arithmetic across moduli; raised by no command (R232) -/
  | domainMismatch
  /-- code 2: a field element that must be inverted is 0 (R233) -/
  | invalidPoint
  /-- code 3: the scalar is 0 or not below `N` (R234) -/
  | invalidScalar
  /-- code 4: reserved for the excluded persistence layer; raised by no command (R235) -/
  | ioFailure
  /-- code 5: the word decodes to no command (R236) -/
  | illegalCommand
  /-- code 6: a source register has `V = 0` (R237) -/
  | uninitRegister
  /-- code 7: bytes of `BUF` do not form a value of the register's type (R238) -/
  | operandRange
  /-- code 8: an access would leave `BUF`, or a length exceeds its limit (R239) -/
  | bufferRange
  deriving DecidableEq, Repr

/-- The outcome of a functional-layer operation (00_scope.md R15 `Result`). -/
abbrev Res (α : Type) := Except FaultCode α

/-- What a host access does: a read, or a write of its data (20_memory.md R62). -/
inductive AccessKind where
  | read
  | write (data : Word)
  deriving DecidableEq, Repr

/-- One host access: its width in bits, its byte address and what it does. Every access of a width other than 32 is refused
(20_memory.md R62, R70); the data of such a write is never looked at (log 25). -/
structure Access where
  width : Nat
  addr  : BusAddr
  kind  : AccessKind
  deriving DecidableEq, Repr

/-- The block's answer to a host access (20_memory.md R62): a refused access carries no data. -/
inductive Response where
  /-- `Ok` of a read, with its data -/
  | okData (data : Word)
  /-- `Ok` of a write -/
  | okWrite
  /-- `Err`: the access was refused (20_memory.md R70) -/
  | err
  deriving DecidableEq, Repr

/-- One entry of the total order of host accesses and engine completions (20_memory.md R73), with the hard reset input
(70_reset_and_hazards.md R270). -/
inductive Event where
  /-- the host performs one bus access -/
  | access (a : Access)
  /-- the hard reset input is applied -/
  | hardReset
  /-- the engine's turn: it completes the pending command, if there is one (10_state.md R45) -/
  | engine
  deriving DecidableEq, Repr

/-- The doubling-table cache `UTBL` when its valid bit is set: the base point and its entries (10_state.md R41). -/
structure UTable where
  key   : Point
  entry : List Point
  deriving DecidableEq, Repr

/-- `BUF` as a list of cells in one canonical form (10_state.md R40; `Memory.wf`). -/
abbrev Memory := List Host.Cell

/-- What a byte of `BUF` that is not listed reads as: the reset value of 10_state.md R40 and R47 (log 11). -/
def unlistedByte : Byte := 0x00#8

/-- The canonical form above a lower bound: addresses strictly rising from `lo`, inside `BUF`, and no entry equal to what
an unlisted address reads as. -/
def Memory.wfFrom : Nat → Memory → Bool
  | _, [] => true
  | lo, (a, b) :: m =>
    decide (lo ≤ a) && decide (a < Config.bufSize) && decide (b ≠ unlistedByte) && Memory.wfFrom (a + 1) m

/-- The canonical form of `BUF`. -/
def Memory.wf (m : Memory) : Bool := Memory.wfFrom 0 m

/-- The whole state: the table of 10_state.md R20, and two fields of the model's own (`sched`, `resp`). A register is `none`
exactly when its valid bit `V` is 0 (R23, R24; log 1). -/
structure State where
  /-- `F0..F7` (R21) -/
  f : Vector (Option Fe) 8
  /-- `K0..K3` (R25) -/
  k : Vector (Option Scalar) 4
  /-- `Q0..Q3` (R22) -/
  q : Vector (Option Point) 4
  /-- `BUF[0..255]` (R40) -/
  buf : Memory
  /-- `CMD`, the last accepted command word (R32) -/
  cmd : Word
  /-- `STATUS.BUSY` (R33) -/
  busy : Bool
  /-- `STATUS.DONE` (R33) -/
  done : Bool
  /-- `STATUS.ERR` (R33) -/
  err : Bool
  /-- `STATUS.T`, the test flag (R29, R33) -/
  t : Bool
  /-- `STATUS.OVR` (R33) -/
  ovr : Bool
  /-- `ERRCODE[7:0]` (R34) -/
  errcode : Byte
  /-- `ERRINFO` (R35) -/
  errinfo : Word
  /-- `RLEN[7:0]` (R36) -/
  rlen : Byte
  /-- `IEN`: bit 0 `IE_DONE`, bit 1 `IE_ERR` (R38) -/
  ien : BitVec 2
  /-- `UTBL`, `none` when its valid bit is 0 (R41) -/
  utbl : Option UTable
  /-- the model's own: the events still to come, oldest first (log 2) -/
  sched : List Event
  /-- the model's own: the response the host last got, `none` before the first access (log 5) -/
  resp : Option Response
  deriving DecidableEq, Repr

/-- Why a step stops with a fault. There is no such reason: every command fault of the spec is an entry the block takes
and goes on from (10_state.md R45, 60_exceptions.md R240), and `exec` is total (30_encoding.md R97), so this type has no
constructor (log 15). -/
inductive Fault
  deriving DecidableEq, Repr

/-- Why a step refuses an instruction. -/
inductive Refusal where
  /-- Raised by an arm of `exec` for a command that has no meaning yet; safe. No arm does so: every command has one. -/
  | notModelled (mnemonic : String)
  deriving DecidableEq, Repr

/-- The state after hard reset (10_state.md R47, 70_reset_and_hazards.md R271): every register without a value, `BUF` all
zero, every control register zero, `UTBL` invalid. `sched` and `resp` are the model's own (DESIGN CHOICE, logs 2 and 5). -/
def State.reset : State where
  f := Vector.replicate 8 none
  k := Vector.replicate 4 none
  q := Vector.replicate 4 none
  buf := []
  cmd := 0#32
  busy := false
  done := false
  err := false
  t := false
  ovr := false
  errcode := 0#8
  errinfo := 0#32
  rlen := 0#8
  ien := 0#2
  utbl := none
  sched := []
  resp := none

end Sys2Proof.Machine
end

