-- ==== Sys2Proof/Machine/Ops.lean ====
section
/-! DEFINITION. The shared operations over the state: bytes of `BUF` and their big-endian values, the range-checked
engine accesses, the completion of a command, the entry of a fault and the return from it, and reset. -/

namespace Sys2Proof.Machine

/-- The outcome of one command or one step. -/
abbrev Out := Host.Outcome State Fault Refusal

/-! ### Bytes and integers (00_scope.md R12) -/

/-- `be(bytes)`, the big-endian unsigned integer of a byte string (00_scope.md R12). -/
def be : List Byte → Nat
  | [] => 0
  | b :: rest => b.toNat * 256 ^ rest.length + be rest

/-- The `n` low bytes of `v`, most significant first. -/
def beBytes : Nat → Nat → List Byte
  | 0, _ => []
  | n + 1, v => BitVec.ofNat 8 (v / 256 ^ n) :: beBytes n v

/-- `bytes32(v)`: the 32-byte string whose value is `v`, most significant byte first (00_scope.md R12). -/
def bytes32 (v : Nat) : List Byte := beBytes 32 v

/-! ### `BUF` (20_memory.md R60, R66) -/

/-- The byte at an offset; an offset that is not listed reads as `unlistedByte`. -/
def byteAt : Memory → Nat → Byte
  | [], _ => unlistedByte
  | (a, b) :: m, i => if i = a then b else byteAt m i

/-- The memory with an entry in front, left out when it says what an unlisted address reads as. -/
def consCell (i : Nat) (v : Byte) (m : Memory) : Memory :=
  if v = unlistedByte then m else (i, v) :: m

/-- Store one byte, keeping the canonical form. -/
def setByte : Memory → Nat → Byte → Memory
  | [], i, v => consCell i v []
  | (a, b) :: m, i, v =>
    if i < a then consCell i v ((a, b) :: m)
    else if i = a then consCell i v m
    else (a, b) :: setByte m i v

/-- The `n` bytes from an offset, lowest offset first. -/
def bytesAt (m : Memory) (off : Nat) : Nat → List Byte
  | 0 => []
  | n + 1 => byteAt m off :: bytesAt m (off + 1) n

/-- Store a byte string from an offset, first byte at the lowest offset. -/
def setBytes : Memory → Nat → List Byte → Memory
  | m, _, [] => m
  | m, off, b :: bs => setBytes (setByte m off b) (off + 1) bs

/-- `MemRead(off, n)` (20_memory.md R66): `BufferRange` when the access would leave `BUF`. -/
def memRead (m : Memory) (off n : Nat) : Res (List Byte) :=
  if off + n > Config.bufSize then .error .bufferRange else .ok (bytesAt m off n)

/-- `MemWrite(off, n, s)` with `n = len(s)` (20_memory.md R66): the range is checked before the first byte. -/
def memWrite (m : Memory) (off : Nat) (bs : List Byte) : Res Memory :=
  if off + bs.length > Config.bufSize then .error .bufferRange else .ok (setBytes m off bs)

/-! ### Completion, fault entry and fault return (10_state.md R45, 60_exceptions.md R240, R242) -/

/-- The value of `ERRCODE` for a fault (60_exceptions.md R231). -/
def codeByte : FaultCode → Byte
  | .domainMismatch => 1#8
  | .invalidPoint => 2#8
  | .invalidScalar => 3#8
  | .ioFailure => 4#8
  | .illegalCommand => 5#8
  | .uninitRegister => 6#8
  | .operandRange => 7#8
  | .bufferRange => 8#8

/-- Completion of a command without a fault (10_state.md R45). -/
def completeOk (s : State) : State := { s with busy := false, done := true }

/-- FAULT ENTRY, the one way a command faults (60_exceptions.md R240): the fault record is written and nothing else. -/
def raiseFault (c : FaultCode) (s : State) : State :=
  { s with busy := false, done := true, err := true, errcode := codeByte c, errinfo := s.cmd }

/-- The engine step of a command that was executed in `s` with result `r` (10_state.md R45): always a next state. -/
def finish (r : Res State) (s : State) : Out :=
  .next (match r with
    | .ok s' => completeOk s'
    | .error c => raiseFault c s)

/-- FAULT RETURN: `CTRL.CLRERR` (10_state.md R37, 60_exceptions.md R242). -/
def clearFault (s : State) : State := { s with err := false, errcode := 0#8, errinfo := 0#32 }

/-- Reset, hard or `CTRL.SRST` (70_reset_and_hazards.md R270): the whole state of the block takes its reset values. The events
still to come and the last response are the host's and stay (log 6). -/
def resetBlock (s : State) : State := { State.reset with sched := s.sched, resp := s.resp }

end Sys2Proof.Machine
end

