-- ==== Sys2Proof/Machine/Flags.lean ====
section
/-! DEFINITION. The one condition flag, the `STATUS` word and the interrupt output (10_state.md R29, R33, R39). -/

namespace Sys2Proof.Machine

/-- `T <- b` (10_state.md R29). -/
def setT (s : State) (b : Bool) : State := { s with t := b }

/-- The `STATUS` word: `BUSY`, `DONE`, `ERR`, `T`, `OVR` in bits 0 to 4, the rest 0 (10_state.md R33). -/
def statusWord (s : State) : Word :=
  (BitVec.ofBool s.ovr ++ BitVec.ofBool s.t ++ BitVec.ofBool s.err ++ BitVec.ofBool s.done ++ BitVec.ofBool s.busy).setWidth 32

/-- `IEN.IE_DONE` (10_state.md R38). -/
def ieDone (s : State) : Bool := s.ien.getLsbD 0

/-- `IEN.IE_ERR` (10_state.md R38). -/
def ieErr (s : State) : Bool := s.ien.getLsbD 1

/-- The interrupt output, a pure function of the state (10_state.md R39, 60_exceptions.md R250). -/
def irq (s : State) : Bool := (ieDone s && s.done) || (ieErr s && s.err)

end Sys2Proof.Machine
end

