-- ==== Sys2Proof/Machine/Bus.lean ====
section
/-! DEFINITION. The host's side of the block (20_memory.md, 10_state.md section 5): bus reads and writes of the host
window, the issue of a command, the actions of `CTRL`, and refused accesses. -/

namespace Sys2Proof.Machine

/-- `addr[1:0] = 00` (20_memory.md R68). -/
def aligned (a : BusAddr) : Bool := decide (a.toNat % 4 = 0)

/-- Is the address in the `BUF` window `0x100..0x1FF` (20_memory.md R61). -/
def inBufWindow (a : BusAddr) : Bool := decide (0x100 ≤ a.toNat) && decide (a.toNat < 0x200)

/-- The offset into `BUF` of an address of the window (20_memory.md R63). -/
def bufOffset (a : BusAddr) : Nat := a.toNat - 0x100

/-- The four bytes of `BUF` from an offset as a word, big-endian (20_memory.md R63). -/
def bufWord (m : Memory) (off : Nat) : Word := BitVec.ofNat 32 (be (bytesAt m off 4))

/-- A word stored in the four bytes of `BUF` from an offset, big-endian (20_memory.md R63). -/
def setBufWord (m : Memory) (off : Nat) (d : Word) : Memory := setBytes m off (beBytes 4 d.toNat)

/-- What an aligned 32-bit read of a control register or of the window returns, `none` when it is refused
(20_memory.md R61, R64, R69; 10_state.md R31 to R38). -/
def readWord (a : BusAddr) (s : State) : Option Word :=
  match a.toNat with
  | 0x000 => some Config.idWord
  | 0x004 => some s.cmd
  | 0x008 => some (statusWord s)
  | 0x00C => some (s.errcode.setWidth 32)
  | 0x010 => some s.errinfo
  | 0x014 => some (s.rlen.setWidth 32)
  | 0x018 => some 0#32
  | 0x01C => some (s.ien.setWidth 32)
  | _ => if inBufWindow a && !s.busy then some (bufWord s.buf (bufOffset a)) else none

/-- Issue of an accepted command word (10_state.md R44): the word is not decoded. -/
def issueWord (w : Word) (s : State) : State := { s with cmd := w, busy := true, done := false }

/-- `CTRL.CLRDONE` (10_state.md R37). -/
def clearDone (s : State) : State := { s with done := false }

/-- `CTRL.CLROVR` (10_state.md R37). -/
def clearOvr (s : State) : State := { s with ovr := false }

/-- A write to `CTRL` (10_state.md R37): each bit written as 1 performs its action; `SRST` makes the others irrelevant. -/
def ctrlWrite (d : Word) (s : State) : State :=
  if d.getLsbD 3 then resetBlock s
  else
    let s1 := if d.getLsbD 0 then clearFault s else s
    let s2 := if d.getLsbD 1 then clearDone s1 else s1
    if d.getLsbD 2 then clearOvr s2 else s2

/-- What an aligned 32-bit write does, `none` when it is refused (20_memory.md R61, R64, R69, R70; 10_state.md R37, R38, R44). -/
def writeWord (a : BusAddr) (d : Word) (s : State) : Option State :=
  match a.toNat with
  | 0x004 => if s.busy || s.err then none else some (issueWord d s)
  | 0x018 => some (ctrlWrite d s)
  | 0x01C => some { s with ien := d.setWidth 2 }
  | _ => if inBufWindow a && !s.busy then some { s with buf := setBufWord s.buf (bufOffset a) d } else none

/-- `BusRead(addr)` (20_memory.md R62): `none` is `Err`. No read has a side effect (R71). -/
def busRead (a : BusAddr) (s : State) : Option Word :=
  if aligned a then readWord a s else none

/-- `BusWrite(addr, data)` (20_memory.md R62): `none` is `Err`. -/
def busWrite (a : BusAddr) (d : Word) (s : State) : Option State :=
  if aligned a then writeWord a d s else none

/-- A refused access: `OVR <- 1` and the response `Err`, nothing else (20_memory.md R70). -/
def refuseAccess (s : State) : State := { s with ovr := true, resp := some .err }

/-- One host access with its response (20_memory.md R62, R70). -/
def hostAccess (x : Access) (s : State) : State :=
  if x.width ≠ 32 then refuseAccess s
  else match x.kind with
    | .read => match busRead x.addr s with
      | some d => { s with resp := some (.okData d) }
      | none => refuseAccess s
    | .write d => match busWrite x.addr d s with
      | some s' => { s' with resp := some .okWrite }
      | none => refuseAccess s

end Sys2Proof.Machine
end

