-- ==== Sys2Proof/Machine/Operands.lean ====
section
/-! DEFINITION. Every operand form (30_encoding.md R93, R94): source and destination registers of the three files,
buffer ranges, and the stored forms of a field element, an integer and a point. -/

namespace Sys2Proof.Machine

/-- `F[a]`: its value, or nothing when its valid bit is 0 (10_state.md R21, R23). -/
def regF (s : State) (a : FReg) : Option Fe := s.f[a]

/-- `K[e]`: its value, or nothing when its valid bit is 0 (10_state.md R25, R23). -/
def regK (s : State) (e : KReg) : Option Scalar := s.k[e]

/-- `Q[a]`: its value, or nothing when its valid bit is 0 (10_state.md R22, R23). -/
def regQ (s : State) (a : QReg) : Option Point := s.q[a]

/-- `need` of one register: its value, or `UninitRegister` when `V = 0` (00_scope.md R13, 10_state.md R24). -/
def need {α : Type} : Option α → Res α
  | some v => .ok v
  | none => .error .uninitRegister

/-- Source register `F[a]` (10_state.md R21, R24). -/
def needF (s : State) (a : FReg) : Res Fe := need (regF s a)

/-- Source register `K[e]` (10_state.md R25, R24). -/
def needK (s : State) (e : KReg) : Res Scalar := need (regK s e)

/-- Source register `Q[a]` (10_state.md R22, R24). -/
def needQ (s : State) (a : QReg) : Res Point := need (regQ s a)

/-- `F[d] <- v`: the value and its valid bit in one transition (10_state.md R23). -/
def setF (s : State) (d : FReg) (v : Fe) : State := { s with f := s.f.set d (some v) }

/-- `K[d] <- v` (10_state.md R23). -/
def setK (s : State) (d : KReg) (v : Scalar) : State := { s with k := s.k.set d (some v) }

/-- `Q[d] <- v` (10_state.md R23). -/
def setQ (s : State) (d : QReg) (v : Point) : State := { s with q := s.q.set d (some v) }

/-- The bytes a command stores, with the range check (20_memory.md R66). -/
def storeBytes (s : State) (off : Nat) (bs : List Byte) : Res State :=
  (memWrite s.buf off bs).bind fun m => .ok { s with buf := m }

/-- A field element from an integer: refused, not reduced, when it is not below `P` (44_transfer_system.md R211). -/
def feOfNat (v : Nat) : Res Fe :=
  if h : v < Config.P then .ok ⟨v, h⟩ else .error .operandRange

/-- The tag byte of `Infinity` (44_transfer_system.md R216). -/
def tagInfinity : Byte := 0x00#8

/-- The tag byte of `Finite` (44_transfer_system.md R216). -/
def tagFinite : Byte := 0x01#8

/-- The stored form of a point, 65 bytes (44_transfer_system.md R216). -/
def pointBytes : Point → List Byte
  | .infinity => tagInfinity :: List.replicate 64 0x00#8
  | .finite x y => tagFinite :: (bytes32 x.val ++ bytes32 y.val)

/-- The point a stored form stands for (44_transfer_system.md R217): `OperandRange` for a tag that is neither, or for a
coordinate that is not below `P`; the bytes after a `0x00` tag are ignored. -/
def pointOfBytes : List Byte → Res Point
  | [] => .error .operandRange
  | tag :: rest =>
    if tag = tagInfinity then .ok .infinity
    else if tag = tagFinite then
      (feOfNat (be (rest.take 32))).bind fun x => (feOfNat (be (rest.drop 32))).bind fun y => .ok (.finite x y)
    else .error .operandRange

end Sys2Proof.Machine
end

