-- ==== Sys2Proof/Machine/Base58.lean ====
section
/-! DEFINITION. Base58 conversion and Base58Check framing (43_base58check.md): the functional layer and the commands
B58ENC and B58CHK. -/

namespace Sys2Proof.Machine

/-! ### Functional layer -/

/-- `ALPH[i]`: the byte of the character at position `i` of the alphabet, by the ranges of 43_base58check.md R190. -/
def alph (i : Fin 58) : Byte :=
  if i.val ≤ 8 then BitVec.ofNat 8 (0x31 + i.val)
  else if i.val ≤ 16 then BitVec.ofNat 8 (0x41 + (i.val - 9))
  else if i.val ≤ 21 then BitVec.ofNat 8 (0x4A + (i.val - 17))
  else if i.val ≤ 32 then BitVec.ofNat 8 (0x50 + (i.val - 22))
  else if i.val ≤ 43 then BitVec.ofNat 8 (0x61 + (i.val - 33))
  else BitVec.ofNat 8 (0x6D + (i.val - 44))

/-- The division loop with a bound on its rounds. -/
def digitLoop : Nat → Nat → List (Fin 58)
  | 0, _ => []
  | n + 1, v => if v = 0 then [] else ⟨v % 58, Nat.mod_lt _ (by decide)⟩ :: digitLoop n (v / 58)

/-- `digits(v)`: the remainders by 58, least significant first; none for 0 (43_base58check.md R191). The bound `log2 v + 1` is
never what ends the loop. -/
def digits (v : Nat) : List (Fin 58) := digitLoop (v.log2 + 1) v

/-- `lz(payload)`: the number of leading zero bytes (43_base58check.md R192). -/
def leadingZeros : List Byte → Nat
  | [] => 0
  | b :: rest => if b = 0x00#8 then leadingZeros rest + 1 else 0

/-- `b58_encode(payload)`: a `'1'` for each leading zero byte, then the digits, most significant first
(43_base58check.md R193). -/
def b58Encode (payload : List Byte) : List Byte :=
  List.replicate (leadingZeros payload) (alph 0) ++ (digits (be payload)).reverse.map alph

/-- `checksum(payload)`: the first four bytes of the double digest (43_base58check.md R196). -/
def checksum (payload : List Byte) : List Byte :=
  (Config.hash256 (Config.hash256 payload).toList).toList.take 4

/-- `b58check(payload) = b58_encode(payload ‖ checksum(payload))` (43_base58check.md R197). -/
def b58Check (payload : List Byte) : List Byte := b58Encode (payload ++ checksum payload)

/-! ### Commands -/

/-- What B58ENC and B58CHK share (43_base58check.md R194, R195): the length limit, the source, the conversion, the destination
range, then the characters and `RLEN`. -/
def base58Command (limit : Nat) (conv : List Byte → List Byte) (dst src len : Nat) (s : State) : Out :=
  finish (if len > limit then .error .bufferRange
    else (memRead s.buf src len).bind fun payload =>
      (storeBytes s dst (conv payload)).bind fun s' =>
        .ok { s' with rlen := BitVec.ofNat 8 (conv payload).length }) s

/-- B58ENC (43_base58check.md R194). -/
def execB58enc (dst src len : Nat) (s : State) : Out := base58Command Config.lMax b58Encode dst src len s

/-- B58CHK (43_base58check.md R195). -/
def execB58chk (dst src len : Nat) (s : State) : Out := base58Command Config.chkMax b58Check dst src len s

end Sys2Proof.Machine
end

