-- ==== Sys2Proof/Machine/Field.lean ====
section
/-! DEFINITION. Field arithmetic (40_field.md): the functional layer `fe_*` and the commands FADD, FSUB, FMUL, FDIV,
FPOW, FINV, FEQ. -/

namespace Sys2Proof.Machine

theorem prime_pos : 0 < Config.P := by decide

/-! ### Functional layer -/

/-- A remainder lies in `[0, m)` (00_scope.md R11, 40_field.md R121). -/
theorem toNat_emod_lt {m : Nat} (h : 0 < m) (z : Int) : (z % (m : Int)).toNat < m :=
  (Int.toNat_lt_of_ne_zero (Nat.ne_of_gt h)).2 (Int.emod_lt_of_pos z (Int.natCast_pos.2 h))

/-- An exact integer normalised into `[0, P)` (40_field.md R121, 00_scope.md R11). -/
def normFe (z : Int) : Fe := ⟨(z % (Config.P : Int)).toNat, toNat_emod_lt prime_pos z⟩

/-- `fe_add(a, b) = (a + b) mod P` (40_field.md R122). -/
def feAdd (a b : Fe) : Fe := normFe ((a.val : Int) + (b.val : Int))

/-- `fe_sub(a, b) = (a - b) mod P` (40_field.md R123). -/
def feSub (a b : Fe) : Fe := normFe ((a.val : Int) - (b.val : Int))

/-- `fe_neg(y) = fe_sub(0, y)` (40_field.md R123). -/
def feNeg (y : Fe) : Fe := feSub (normFe 0) y

/-- `fe_mul(a, b) = (a · b) mod P`, the product over the integers (40_field.md R124). -/
def feMul (a b : Fe) : Fe := normFe ((a.val : Int) * (b.val : Int))

/-- Square and multiply over the low `n` bits of the exponent, the algorithm 40_field.md R125 expects. -/
def powBits : Nat → Nat → Nat → Nat
  | 0, _, _ => 1
  | n + 1, b, e =>
    if e % 2 = 1 then b * powBits n (b * b % Config.P) (e / 2) % Config.P
    else powBits n (b * b % Config.P) (e / 2)

/-- `fe_pow(a, e) = (a ^ e) mod P`, the exponent not reduced, `fe_pow(a, 0) = 1` (40_field.md R125; log 12). -/
def fePow (a : Fe) (e : Nat) : Fe :=
  ⟨powBits (e.log2 + 1) a.val e % Config.P, Nat.mod_lt _ prime_pos⟩

/-- `fe_inv(a)`: `a ^ (P - 2)`, `InvalidPoint` for 0 (40_field.md R126). -/
def feInv (a : Fe) : Res Fe :=
  if a.val = 0 then .error .invalidPoint else .ok (fePow a (Config.P - 2))

/-- `fe_div(a, b) = a · inverse(b)` (40_field.md R127). -/
def feDiv (a b : Fe) : Res Fe := (feInv b).bind fun i => .ok (feMul a i)

/-- `fe_eq(a, b)`: equality of the reduced integers (40_field.md R128). -/
def feEq (a b : Fe) : Bool := decide (a = b)

/-- CW's generic field element, a value with its modulus and the invariant `0 ≤ value < modulus` (40_field.md R120,
00_scope.md R15); so no modulus is 0. -/
@[ext] structure FieldElement where
  /-- the reduced integer -/
  value : Nat
  /-- what it is reduced by -/
  modulus : Nat
  /-- the invariant -/
  value_lt : value < modulus
  deriving DecidableEq, Repr

/-- CW's generic binary operation: `DomainMismatch` across moduli, else the operation reduced (40_field.md R120). No command
reaches the fault: every register's modulus is `P` (60_exceptions.md R232). -/
def opGeneric (op : Int → Int → Int) (x y : FieldElement) : Res FieldElement :=
  if x.modulus ≠ y.modulus then .error .domainMismatch
  else .ok ⟨(op x.value y.value % (x.modulus : Int)).toNat, x.modulus,
    toNat_emod_lt (Nat.zero_lt_of_lt x.value_lt) (op x.value y.value)⟩

/-- A register's field element as CW's generic one: its modulus is `P` (40_field.md R120). -/
def genericOf (a : Fe) : FieldElement := ⟨a.val, Config.P, a.isLt⟩

/-! ### Commands -/

/-- The three-register form of FADD, FSUB, FMUL and FDIV: sources, operation, destination (40_field.md R130 to R133). -/
def fieldBinary (op : Fe → Fe → Res Fe) (d a b : FReg) (s : State) : Out :=
  finish ((needF s a).bind fun x => (needF s b).bind fun y => (op x y).bind fun r => .ok (setF s d r)) s

/-- FADD (40_field.md R130). -/
def execFadd (d a b : FReg) (s : State) : Out := fieldBinary (fun x y => .ok (feAdd x y)) d a b s

/-- FSUB (40_field.md R131). -/
def execFsub (d a b : FReg) (s : State) : Out := fieldBinary (fun x y => .ok (feSub x y)) d a b s

/-- FMUL (40_field.md R132). -/
def execFmul (d a b : FReg) (s : State) : Out := fieldBinary (fun x y => .ok (feMul x y)) d a b s

/-- FDIV (40_field.md R133). -/
def execFdiv (d a b : FReg) (s : State) : Out := fieldBinary feDiv d a b s

/-- FPOW (40_field.md R134). -/
def execFpow (d a : FReg) (e : KReg) (s : State) : Out :=
  finish ((needF s a).bind fun x => (needK s e).bind fun n => .ok (setF s d (fePow x n.toNat))) s

/-- FINV (40_field.md R135). -/
def execFinv (d a : FReg) (s : State) : Out :=
  finish ((needF s a).bind fun x => (feInv x).bind fun r => .ok (setF s d r)) s

/-- FEQ (40_field.md R136). -/
def execFeq (a b : FReg) (s : State) : Out :=
  finish ((needF s a).bind fun x => (needF s b).bind fun y => .ok (setT s (feEq x y))) s

end Sys2Proof.Machine
end

