-- ==== Sys2Proof/Machine/Points.lean ====
section
/-! DEFINITION. Point addition and doubling (41_point.md): the functional layer `pt_*` and the commands PADD, PDBL, PEQ,
LDG. -/

namespace Sys2Proof.Machine

/-! ### Functional layer -/

/-- The generator `G` (00_scope.md R6, 10_state.md R28). -/
def generator : Point := .finite (normFe (Config.Gx : Int)) (normFe (Config.Gy : Int))

/-- `finish(lam)` of 41_point.md R151: `x3 = λ² - p.x - q.x`, `y3 = λ·(p.x - x3) - p.y`. -/
def chordEnd (lam px py qx : Fe) : Point :=
  let x3 := feSub (feSub (feMul lam lam) px) qx
  .finite x3 (feSub (feMul lam (feSub px x3)) py)

/-- `pt_add(p, q)`: the five cases in the order written, the first that applies decides (41_point.md R151, R152). -/
def ptAdd : Point → Point → Res Point
  | .infinity, q => .ok q
  | .finite px py, .infinity => .ok (.finite px py)
  | .finite px py, .finite qx qy =>
    if px = qx ∧ py = feNeg qy then .ok .infinity
    else if px = qx ∧ py = qy then
      (feDiv (feMul (normFe 3) (feMul px px)) (feMul (normFe 2) py)).bind fun lam => .ok (chordEnd lam px py qx)
    else
      (feDiv (feSub qy py) (feSub qx px)).bind fun lam => .ok (chordEnd lam px py qx)

/-- `pt_double(p) = pt_add(p, p)`, which never faults (41_point.md R154). The branch for a fault is dead
(`ptAdd_self`, Laws/Field.lean), so the point named there is no value of the block (log 13). -/
def ptDouble (p : Point) : Point :=
  match ptAdd p p with
  | .ok r => r
  | .error _ => .infinity

/-- `pt_eq(p, q)`: equality of tagged points (41_point.md R158). -/
def ptEq (p q : Point) : Bool := decide (p = q)

/-! ### Commands -/

/-- PADD (41_point.md R157). -/
def execPadd (d a b : QReg) (s : State) : Out :=
  finish ((needQ s a).bind fun p => (needQ s b).bind fun r => (ptAdd p r).bind fun v => .ok (setQ s d v)) s

/-- PDBL (41_point.md R159). -/
def execPdbl (d a : QReg) (s : State) : Out :=
  finish ((needQ s a).bind fun p => .ok (setQ s d (ptDouble p))) s

/-- PEQ (41_point.md R161). -/
def execPeq (a b : QReg) (s : State) : Out :=
  finish ((needQ s a).bind fun p => (needQ s b).bind fun r => .ok (setT s (ptEq p r))) s

/-- LDG (41_point.md R160). -/
def execLdg (d : QReg) (s : State) : Out :=
  finish (.ok (setQ s d generator)) s

end Sys2Proof.Machine
end

