-- ==== Sys2Proof/Machine/ScalarMul.lean ====
section
/-! DEFINITION. Scalar multiplication (42_scalar_mul.md): the doubling table, the scan, the cache, and the command SMUL. -/

namespace Sys2Proof.Machine

/-! ### Functional layer -/

/-- `n` successive doublings from a base point, the base first. -/
def doublings : Nat → Point → List Point
  | 0, _ => []
  | n + 1, b => b :: doublings n (ptDouble b)

/-- `tbl(B)`: the 256 entries `B, 2B, 4B, …, 2^255·B` (42_scalar_mul.md R170). -/
def tbl (base : Point) : List Point := doublings Config.tableLength base

/-- The scan of 42_scalar_mul.md R171 from bit `i` on: the accumulator is the left operand, a clear bit does nothing, and a fault
of an addition ends it (a path no pair reaches, R174; log 24). -/
def scanBits (k : Scalar) : Nat → Point → List Point → Res Point
  | _, acc, [] => .ok acc
  | i, acc, e :: rest =>
    if k.getLsbD i then (ptAdd acc e).bind fun r => scanBits k (i + 1) r rest
    else scanBits k (i + 1) acc rest

/-- `scalar_mul` over a given table: the range test of the scalar comes first (42_scalar_mul.md R171, R172). -/
def scalarMulWith (k : Scalar) (table : List Point) : Res Point :=
  if k.toNat = 0 ∨ k.toNat ≥ Config.N then .error .invalidScalar
  else scanBits k 0 .infinity table

/-- `scalar_mul(k, B)` (42_scalar_mul.md R171). -/
def scalarMul (k : Scalar) (base : Point) : Res Point := scalarMulWith k (tbl base)

/-! ### The cache (10_state.md R41, 42_scalar_mul.md R177) -/

/-- Does `UTBL` hold the table of this base point: `valid and key = B`, by point equality. -/
def utblHit (u : Option UTable) (base : Point) : Bool :=
  match u with
  | some t => ptEq t.key base
  | none => false

/-- The table `SMUL` scans: `GTBL` for the generator, `UTBL` on a hit, else rebuilt (10_state.md R41). -/
def smulTable (u : Option UTable) (base : Point) : List Point :=
  if base = generator then tbl generator
  else match u with
    | some t => if ptEq t.key base then t.entry else tbl base
    | none => tbl base

/-- `UTBL` after a successful `SMUL`: kept for the generator and on a hit, else rebuilt for the base point (10_state.md R41). -/
def smulCache (u : Option UTable) (base : Point) : Option UTable :=
  if base = generator ∨ utblHit u base = true then u else some ⟨base, tbl base⟩

/-! ### Command -/

/-- SMUL (42_scalar_mul.md R175). A faulting `SMUL` leaves `UTBL` as it was (DESIGN CHOICE among what R177 allows: log 7). -/
def execSmul (d b : QReg) (k : KReg) (s : State) : Out :=
  finish ((needQ s b).bind fun base => (needK s k).bind fun n =>
    (scalarMulWith n (smulTable s.utbl base)).bind fun r =>
      .ok (setQ { s with utbl := smulCache s.utbl base } d r)) s

end Sys2Proof.Machine
end

