-- ==== Sys2Proof/Machine/Transfer.lean ====
section
/-! DEFINITION. Transfer and system commands (44_transfer_system.md): NOP, LDF, STF, LDK, STK, LDP, STP. -/

namespace Sys2Proof.Machine

/-- NOP (44_transfer_system.md R210): it only completes. -/
def execNop (s : State) : Out := finish (.ok s) s

/-- LDF (44_transfer_system.md R211). -/
def execLdf (r : FReg) (off : Nat) (s : State) : Out :=
  finish ((memRead s.buf off 32).bind fun bs => (feOfNat (be bs)).bind fun v => .ok (setF s r v)) s

/-- STF (44_transfer_system.md R212). -/
def execStf (r : FReg) (off : Nat) (s : State) : Out :=
  finish ((needF s r).bind fun v => storeBytes s off (bytes32 v.val)) s

/-- LDK (44_transfer_system.md R213). -/
def execLdk (r : KReg) (off : Nat) (s : State) : Out :=
  finish ((memRead s.buf off 32).bind fun bs => .ok (setK s r (BitVec.ofNat 256 (be bs)))) s

/-- STK (44_transfer_system.md R214). -/
def execStk (r : KReg) (off : Nat) (s : State) : Out :=
  finish ((needK s r).bind fun v => storeBytes s off (bytes32 v.toNat)) s

/-- LDP (44_transfer_system.md R217). -/
def execLdp (r : QReg) (off : Nat) (s : State) : Out :=
  finish ((memRead s.buf off 65).bind fun bs => (pointOfBytes bs).bind fun p => .ok (setQ s r p)) s

/-- STP (44_transfer_system.md R218). -/
def execStp (r : QReg) (off : Nat) (s : State) : Out :=
  finish ((needQ s r).bind fun p => storeBytes s off (pointBytes p)) s

end Sys2Proof.Machine
end

