-- ==== Sys2Proof/Machine/Dispatch.lean ====
section
/-! DEFINITION. The dispatch: one arm per command, each one call of its meaning (10_state.md R45 `exec`). -/

namespace Sys2Proof.Machine
def exec (i : Instr) (s : State) : Host.Outcome State Fault Refusal :=
  match i with
  | .nop => Sys2Proof.Machine.execNop s
  -- field arithmetic (40_field.md)
  | .fadd d a b => Sys2Proof.Machine.execFadd d a b s
  | .fsub d a b => Sys2Proof.Machine.execFsub d a b s
  | .fmul d a b => Sys2Proof.Machine.execFmul d a b s
  | .fdiv d a b => Sys2Proof.Machine.execFdiv d a b s
  | .fpow d a e => Sys2Proof.Machine.execFpow d a e s
  | .finv d a => Sys2Proof.Machine.execFinv d a s
  | .feq a b => Sys2Proof.Machine.execFeq a b s
  -- points (41_point.md, 42_scalar_mul.md)
  | .padd d a b => Sys2Proof.Machine.execPadd d a b s
  | .pdbl d a => Sys2Proof.Machine.execPdbl d a s
  | .smul d b k => Sys2Proof.Machine.execSmul d b k s
  | .peq a b => Sys2Proof.Machine.execPeq a b s
  | .ldg d => Sys2Proof.Machine.execLdg d s
  -- transfer (44_transfer_system.md)
  | .ldf r off => Sys2Proof.Machine.execLdf r off s
  | .stf r off => Sys2Proof.Machine.execStf r off s
  | .ldk r off => Sys2Proof.Machine.execLdk r off s
  | .stk r off => Sys2Proof.Machine.execStk r off s
  | .ldp r off => Sys2Proof.Machine.execLdp r off s
  | .stp r off => Sys2Proof.Machine.execStp r off s
  -- Base58 (43_base58check.md)
  | .b58enc dst src len => Sys2Proof.Machine.execB58enc dst src len s
  | .b58chk dst src len => Sys2Proof.Machine.execB58chk dst src len s

end Sys2Proof.Machine
end

