-- ==== Sys2Proof/Machine/Engine.lean ====
section
/-! DEFINITION. The engine's step and one event of the schedule (10_state.md R44, R45; 20_memory.md R73). -/

namespace Sys2Proof.Machine

/-- Completion of the command in `CMD` (10_state.md R45): decode it, then its own rule; an illegal word is the fault
`IllegalCommand` (30_encoding.md R96). -/
def completeCommand (s : State) : Out :=
  match decode s.cmd with
  | .ok i => exec i s
  | .error _ => finish (.error .illegalCommand) s

/-- The engine's turn: enabled exactly when `BUSY = 1` (10_state.md R45); otherwise nothing happens (logs 3 and 4). -/
def engineTurn (s : State) : Out := if s.busy then completeCommand s else .next s

/-- One event, already taken off the schedule (20_memory.md R73, 70_reset_and_hazards.md R270). -/
def runEvent (e : Event) (s : State) : Out :=
  match e with
  | .access x => .next (hostAccess x s)
  | .hardReset => .next (resetBlock s)
  | .engine => engineTurn s

end Sys2Proof.Machine
end

