-- ==== Sys2Proof/Machine/Step.lean ====
section
/-! DEFINITION. One step of the whole machine: the next event of the schedule, or the engine's turn when none is listed. -/

namespace Sys2Proof.Machine

/-- One step. The head of the schedule is the next event of the total order of 20_memory.md R73; with none listed the host
does nothing more and the engine completes what is pending (70_reset_and_hazards.md R285; logs 2, 3, 4). -/
def step (s : State) : Host.Outcome State Fault Refusal :=
  match s.sched with
  | [] => engineTurn s
  | e :: rest => runEvent e { s with sched := rest }

/-- `s` with a command word issued and the engine's turn next: what an accepted `CMD` write and the engine's turn amount to
(10_state.md R44; log 16). The next `step` completes exactly that command. -/
def State.withFetchWord (s : State) (nbits w : Nat) : State :=
  { issueWord (BitVec.ofNat 32 (w % 2 ^ nbits)) s with sched := .engine :: s.sched }

end Sys2Proof.Machine
end

