-- ==== Sys2Proof/Safety.lean ====
section
/-! DEFINITION. The terms claims are made in: the machine's invariant, the source and destination of each command, the
faults each command can raise, what the host can see, and the run of a command stream. -/

namespace Sys2Proof.Machine

/-! ### Ready, idle, and the invariant -/

/-- The block is ready: only then does it accept a command (10_state.md R46). -/
def ready (s : State) : Bool := !s.busy && !s.err

/-- `UTBL`, when valid, holds the table of its key, and its key is not the generator (10_state.md R41). -/
def CacheCoherent (s : State) : Prop :=
  ∀ u, s.utbl = some u → u.entry = tbl u.key ∧ u.key ≠ generator

/-- The codes a fault can leave in `ERRCODE` (60_exceptions.md R231 less R232 and R235). -/
def raisedCodes : List Byte := [2#8, 3#8, 5#8, 6#8, 7#8, 8#8]

/-- What every reachable state satisfies. -/
structure BlockInv (s : State) : Prop where
  /-- `BUF` is in its canonical form -/
  buf_wf : Memory.wf s.buf = true
  /-- `BUSY = 1` implies `ERR = 0` (10_state.md R33) -/
  busy_not_err : s.busy = true → s.err = false
  /-- an accepted write clears `DONE`, completion sets it (10_state.md R33) -/
  busy_not_done : s.busy = true → s.done = false
  /-- `ERRCODE` and `ERRINFO` are 0 while `ERR = 0` (10_state.md R34, R35) -/
  clear_record : s.err = false → s.errcode = 0#8 ∧ s.errinfo = 0#32
  /-- while `ERR = 1` they name a code some command raises and the word that faulted, still in `CMD` (60_exceptions.md R243) -/
  fault_record : s.err = true → s.errcode ∈ raisedCodes ∧ s.errinfo = s.cmd
  /-- `RLEN` is 0 to 88 (10_state.md R36) -/
  rlen_le : s.rlen.toNat ≤ 88
  /-- the cache holds the table of its key -/
  cache : CacheCoherent s

/-! ### Sources, destinations, faults of each command -/

/-- Every source register of the command is valid (60_exceptions.md R237). -/
def sourcesValid (i : Instr) (s : State) : Bool :=
  match i with
  | .nop => true
  | .fadd _ a b => (regF s a).isSome && (regF s b).isSome
  | .fsub _ a b => (regF s a).isSome && (regF s b).isSome
  | .fmul _ a b => (regF s a).isSome && (regF s b).isSome
  | .fdiv _ a b => (regF s a).isSome && (regF s b).isSome
  | .fpow _ a e => (regF s a).isSome && (regK s e).isSome
  | .finv _ a => (regF s a).isSome
  | .feq a b => (regF s a).isSome && (regF s b).isSome
  | .padd _ a b => (regQ s a).isSome && (regQ s b).isSome
  | .pdbl _ a => (regQ s a).isSome
  | .smul _ b k => (regQ s b).isSome && (regK s k).isSome
  | .peq a b => (regQ s a).isSome && (regQ s b).isSome
  | .ldg _ => true
  | .ldf _ _ => true
  | .stf r _ => (regF s r).isSome
  | .ldk _ _ => true
  | .stk r _ => (regK s r).isSome
  | .ldp _ _ => true
  | .stp r _ => (regQ s r).isSome
  | .b58enc _ _ _ => true
  | .b58chk _ _ _ => true

/-- The faults a command can raise once it is decoded (60_exceptions.md R244, the columns after `IllegalCommand`). For SMUL the
table has `InvalidPoint` "in the text only; unreachable": it stands here, and that it is never raised is a claim of its own. -/
def allowedFaults : Instr → List FaultCode
  | .nop => []
  | .fadd _ _ _ => [.uninitRegister]
  | .fsub _ _ _ => [.uninitRegister]
  | .fmul _ _ _ => [.uninitRegister]
  | .fdiv _ _ _ => [.uninitRegister, .invalidPoint]
  | .fpow _ _ _ => [.uninitRegister]
  | .finv _ _ => [.uninitRegister, .invalidPoint]
  | .feq _ _ => [.uninitRegister]
  | .padd _ _ _ => [.uninitRegister, .invalidPoint]
  | .pdbl _ _ => [.uninitRegister]
  | .smul _ _ _ => [.uninitRegister, .invalidScalar, .invalidPoint]
  | .peq _ _ => [.uninitRegister]
  | .ldg _ => []
  | .ldf _ _ => [.bufferRange, .operandRange]
  | .stf _ _ => [.uninitRegister, .bufferRange]
  | .ldk _ _ => [.bufferRange]
  | .stk _ _ => [.uninitRegister, .bufferRange]
  | .ldp _ _ => [.bufferRange, .operandRange]
  | .stp _ _ => [.uninitRegister, .bufferRange]
  | .b58enc _ _ _ => [.bufferRange]
  | .b58chk _ _ _ => [.bufferRange]

/-- The `F` register a command writes (10_state.md R21). -/
def destF : Instr → Option FReg
  | .fadd d _ _ => some d
  | .fsub d _ _ => some d
  | .fmul d _ _ => some d
  | .fdiv d _ _ => some d
  | .fpow d _ _ => some d
  | .finv d _ => some d
  | .ldf r _ => some r
  | _ => none

/-- The `K` register a command writes: LDK alone writes one (10_state.md R25). -/
def destK : Instr → Option KReg
  | .ldk r _ => some r
  | _ => none

/-- The `Q` register a command writes (10_state.md R22). -/
def destQ : Instr → Option QReg
  | .padd d _ _ => some d
  | .pdbl d _ => some d
  | .smul d _ _ => some d
  | .ldg d => some d
  | .ldp r _ => some r
  | _ => none

/-- The commands that write `T` (10_state.md R29). -/
def writesT : Instr → Bool
  | .feq _ _ => true
  | .peq _ _ => true
  | _ => false

/-- The commands that write `RLEN` (10_state.md R36). -/
def writesRlen : Instr → Bool
  | .b58enc _ _ _ => true
  | .b58chk _ _ _ => true
  | _ => false

/-- The commands that store to `BUF` (44_transfer_system.md R212, R214, R218; 43_base58check.md R194, R195). -/
def stores : Instr → Bool
  | .stf _ _ => true
  | .stk _ _ => true
  | .stp _ _ => true
  | .b58enc _ _ _ => true
  | .b58chk _ _ _ => true
  | _ => false

/-- The first offset a command stores to and how many bytes, in state `s`: 32 for STF and STK, 65 for STP, as many as the string has
characters for the Base58 commands; nothing for the others. -/
def storedRange (i : Instr) (s : State) : Nat × Nat :=
  match i with
  | .stf _ off => (off, 32)
  | .stk _ off => (off, 32)
  | .stp _ off => (off, 65)
  | .b58enc dst src len => (dst, (b58Encode (bytesAt s.buf src len)).length)
  | .b58chk dst src len => (dst, (b58Check (bytesAt s.buf src len)).length)
  | _ => (0, 0)

/-! ### What the host can see -/

/-- The state without the hidden cache (10_state.md R41, R42). -/
def hideCache (s : State) : State := { s with utbl := none }

/-- Two states no host can tell apart (10_state.md R41). -/
def SameVisible (s t : State) : Prop := hideCache s = hideCache t

/-- Does an event reset the block: the hard reset input, or a `CTRL` write with `SRST = 1` that is not refused
(70_reset_and_hazards.md R270). -/
def resetsBlock : Event → Bool
  | .hardReset => true
  | .access ⟨width, addr, .write d⟩ => decide (width = 32) && decide (addr = 0x018#12) && d.getLsbD 3
  | .access ⟨_, _, .read⟩ => false
  | .engine => false

/-- The bus accesses that are refused, case by case (20_memory.md R70). -/
def refusedAccess (x : Access) (s : State) : Bool :=
  let a := x.addr.toNat
  let reserved := (decide (0x020 ≤ a) && decide (a ≤ 0x0FF)) || decide (0x200 ≤ a)
  let readOnly := a == 0x000 || a == 0x008 || a == 0x00C || a == 0x010 || a == 0x014
  let window := decide (0x100 ≤ a) && decide (a ≤ 0x1FF)
  let isWrite := match x.kind with
    | .read => false
    | .write _ => true
  decide (x.width ≠ 32) || decide (a % 4 ≠ 0) || reserved || (isWrite && readOnly) || (window && s.busy)
    || (isWrite && a == 0x004 && (s.busy || s.err))

/-! ### The addition formulas as congruences (41_point.md R151) -/

/-- `(x3, y3)` is the double of `(x, y)` by the tangent: `λ·2y ≡ 3x²`, `x3 ≡ λ² - 2x`, `y3 ≡ λ·(x - x3) - y` modulo `P`, written
without subtraction (41_point.md R151 case 4, R154). -/
def TangentPoint (x y x3 y3 : Nat) : Prop :=
  ∃ lam : Nat, lam * (2 * y) % Config.P = 3 * x * x % Config.P ∧
    (x3 + 2 * x) % Config.P = lam * lam % Config.P ∧
    (y3 + y + lam * x3) % Config.P = lam * x % Config.P

/-- `(x3, y3)` is the sum by the chord through `(px, py)` and `(qx, qy)`: `λ·(qx - px) ≡ qy - py`, `x3 ≡ λ² - px - qx`,
`y3 ≡ λ·(px - x3) - py` modulo `P`, written without subtraction (41_point.md R151 case 5). -/
def ChordPoint (px py qx qy x3 y3 : Nat) : Prop :=
  ∃ lam : Nat, (lam * qx + py) % Config.P = (lam * px + qy) % Config.P ∧
    (x3 + px + qx) % Config.P = lam * lam % Config.P ∧
    (y3 + py + lam * x3) % Config.P = lam * px % Config.P

/-! ### A command stream (70_reset_and_hazards.md R274) -/

/-- How the run of a command stream ends (70_reset_and_hazards.md R274). -/
inductive StreamEnd where
  /-- the last command completed with `ERR = 0`, or the stream was empty (log 27) -/
  | normal (s : State)
  /-- command `i` completed with `ERR = 1`, or was refused by a locked block (log 26), and no later one was issued -/
  | faultAt (i : Nat) (s : State)
  /-- a command gave no next state; no run ends so -/
  | stopped
  deriving DecidableEq, Repr

/-- The host writes one command word and waits until the engine has completed what is pending, whether the write was accepted or refused
(log 26). -/
def issueAndWait (w : Word) (s : State) : Out :=
  engineTurn (hostAccess ⟨32, 0x004#12, .write w⟩ s)

/-- The run of a command stream from its `i`-th command on. R274 defines the ends by completed commands alone and leaves open how a run
ends whose first command is refused because the block is not ready. DESIGN CHOICE (log 26): the host looks at `ERR` all the same, so
a locked start of a stream that is not empty ends `faultAt` that command, and on a busy start the completion of the earlier command is
taken for that of the refused one. From a ready block no command of the stream is refused. R274 also leaves open how the run of an
empty stream ends, which has no command to complete. DESIGN CHOICE (log 27): it ends `normal`, in the state it starts from, whether
that block is ready, busy or locked. -/
def runStream : Nat → List Word → State → StreamEnd
  | _, [], s => .normal s
  | i, w :: ws, s =>
    match issueAndWait w s with
    | .next t => if t.err then .faultAt i t else runStream (i + 1) ws t
    | .fault _ => .stopped
    | .refused _ => .stopped

end Sys2Proof.Machine
end

