-- ==== Sys2Proof/Certificates/Slice0/Obligations.lean ====
section
/-! DEFINITION. The statements for the provers, from the numbered rules of spec/. A next state is written out field by field, so
that each result statement is also the frame of its command. -/

open Sys2Proof Sys2Proof.Machine

/-! ### Decoding (30_encoding.md) -/

/-- R92 to R95: every well-formed command decodes from its word, with every operand. -/
def Obligations.DecodeEncodeRoundTrip : Prop :=
  ∀ i : Instr, WellFormed i = true → decode (encode i) = .ok i

/-- R92, R94, R96: what a word decodes to is well formed and encodes to that word, so each command has one word. -/
def Obligations.EncodeDecodeRoundTrip : Prop :=
  ∀ (w : Word) (i : Instr), decode w = .ok i → WellFormed i = true ∧ encode i = w

/-- R95: a word is a row's command exactly when `w & mask = match`, and no two rows accept one word. -/
def Obligations.DecodeFollowsOpcodeMap : Prop :=
  (∀ (w : Word) (i : Instr), decode w = .ok i → ∃ r ∈ opcodeMap, r.op = opcodeOf i ∧ rowAccepts w r = true) ∧
  (∀ (w : Word) (r : Row), r ∈ opcodeMap → rowAccepts w r = true → ∃ i, decode w = .ok i ∧ opcodeOf i = r.op) ∧
  (∀ (w : Word) (r r' : Row), r ∈ opcodeMap → r' ∈ opcodeMap → rowAccepts w r = true → rowAccepts w r' = true → r = r')

/-- R99: the words of the spec's own examples decode to the commands they stand for. -/
def Obligations.SpecWordsDecode : Prop :=
  decode 0x00000000#32 = .ok .nop ∧ decode 0x10010203#32 = .ok (.fadd 1 2 3) ∧
  decode 0x14000102#32 = .ok (.fpow 0 1 2) ∧ decode 0x15070700#32 = .ok (.finv 7 7) ∧
  decode 0x16000001#32 = .ok (.feq 0 1) ∧ decode 0x20000102#32 = .ok (.padd 0 1 2) ∧
  decode 0x21030100#32 = .ok (.pdbl 3 1) ∧ decode 0x22010000#32 = .ok (.smul 1 0 0) ∧
  decode 0x23000102#32 = .ok (.peq 1 2) ∧ decode 0x24000000#32 = .ok (.ldg 0) ∧
  decode 0x30022000#32 = .ok (.ldf 2 0x20) ∧ decode 0x35014000#32 = .ok (.stp 1 0x40) ∧
  decode 0x40800026#32 = .ok (.b58enc 0x80 0 38) ∧ decode 0x41800022#32 = .ok (.b58chk 0x80 0 34)

/-! ### Reset and the step (10_state.md, 70_reset_and_hazards.md) -/

/-- R47, R270: hard reset and a `CTRL` write with `SRST = 1` leave the same state, from any state: every register without a value, every
byte of `BUF` zero, every control register zero, the cache invalid. -/
def Obligations.ResetValues : Prop :=
  ∀ s : State, ∃ t : State, runEvent .hardReset s = .next t ∧
    (∀ d : Word, d.getLsbD 3 = true → busWrite 0x018#12 d s = some t) ∧
    (∀ r : FReg, regF t r = none) ∧ (∀ r : KReg, regK t r = none) ∧ (∀ r : QReg, regQ t r = none) ∧
    (∀ a : Nat, byteAt t.buf a = 0x00#8) ∧ t.cmd = 0x00000000#32 ∧ statusWord t = 0x00000000#32 ∧
    t.busy = false ∧ t.done = false ∧ t.err = false ∧ t.t = false ∧ t.ovr = false ∧
    t.errcode = 0#8 ∧ t.errinfo = 0#32 ∧ t.rlen = 0#8 ∧ t.ien = 0#2 ∧ t.utbl = none ∧ irq t = false

/-- R45: on the engine's turn a step runs the decoded command, on the state with that turn taken off the schedule (log 2: the
schedule is the model's own). -/
def Obligations.StepRunsDecodedCommand : Prop :=
  ∀ (s : State) (i : Instr), s.busy = true → decode s.cmd = .ok i →
    (∀ rest, s.sched = .engine :: rest → step s = exec i { s with sched := rest }) ∧
    (s.sched = [] → step s = exec i s)

/-- R44, R45, R270: the other steps: a host access, a hard reset, and an engine's turn with nothing pending. -/
def Obligations.StepPerformsOtherEvents : Prop :=
  (∀ (s : State) (x : Access) (rest : List Event), s.sched = .access x :: rest →
    step s = .next (hostAccess x { s with sched := rest })) ∧
  (∀ (s : State) (rest : List Event), s.sched = .hardReset :: rest → step s = .next (resetBlock { s with sched := rest })) ∧
  (∀ (s : State) (rest : List Event), s.sched = .engine :: rest → s.busy = false → step s = .next { s with sched := rest }) ∧
  (∀ s : State, s.sched = [] → s.busy = false → step s = .next s)

/-- R236: a word that decodes to no command was accepted like any other and faults `IllegalCommand` (code 5) when it completes. -/
def Obligations.IllegalWordFaultsAtCompletion : Prop :=
  ∀ (s : State) (w : Word) (e : Illegal), decode w = .error e → s.busy = false → s.err = false →
    ∃ t : State, hostAccess ⟨32, 0x004#12, .write w⟩ s = t ∧ t.cmd = w ∧ t.busy = true ∧
      engineTurn t = .next { t with busy := false, done := true, err := true, errcode := 5#8, errinfo := w }

/-- R45, R240: every command answers a next state in which it has completed; a fault writes its record and nothing else; a command
without a fault leaves the record as it was. -/
def Obligations.CommandCompletesOrFaultsPrecisely : Prop :=
  ∀ (i : Instr) (s : State), ∃ t : State, exec i s = .next t ∧ t.busy = false ∧ t.done = true ∧
    (s.err = false → t.err = true →
      t = { s with busy := false, done := true, err := true, errcode := t.errcode, errinfo := s.cmd } ∧
      ∃ c : FaultCode, t.errcode = codeByte c) ∧
    (t.err = false → t.errcode = s.errcode ∧ t.errinfo = s.errinfo)

/-- R244: a command that faults, faults with a code of its own row. -/
def Obligations.FaultsAreOfTheTable : Prop :=
  ∀ (i : Instr) (s t : State), s.err = false → exec i s = .next t → t.err = true →
    ∃ c ∈ allowedFaults i, t = raiseFault c s

/-- R237 (R231, R240): a command faults `UninitRegister` (code 6) exactly when one of its source registers is invalid. -/
def Obligations.UninitSourceFaults : Prop :=
  ∀ (i : Instr) (s : State), s.err = false →
    (exec i s = .next { s with busy := false, done := true, err := true, errcode := 6#8, errinfo := s.cmd } ↔
      sourcesValid i s = false)

/-! ### Field commands (40_field.md) -/

/-- R130, R131, R132 (R122, R123, R124): sum, difference and product modulo `P`. -/
def Obligations.SumDifferenceProduct : Prop :=
  ∀ (d a b : FReg) (s : State) (x y : Fe), regF s a = some x → regF s b = some y →
    (∃ v : Fe, (v.val : Int) = ((x.val : Int) + y.val) % Config.P ∧
      exec (.fadd d a b) s = .next { s with f := s.f.set d (some v), busy := false, done := true }) ∧
    (∃ v : Fe, (v.val : Int) = ((x.val : Int) - y.val) % Config.P ∧
      exec (.fsub d a b) s = .next { s with f := s.f.set d (some v), busy := false, done := true }) ∧
    (∃ v : Fe, (v.val : Int) = ((x.val : Int) * y.val) % Config.P ∧
      exec (.fmul d a b) s = .next { s with f := s.f.set d (some v), busy := false, done := true })

/-- R133 (R126, R127): `F[a]·F[b]^(P-2)` for every divisor but 0. -/
def Obligations.FdivResult : Prop :=
  ∀ (d a b : FReg) (s : State) (x y : Fe), regF s a = some x → regF s b = some y → y.val ≠ 0 →
    ∃ v : Fe, v.val = x.val * y.val ^ (Config.P - 2) % Config.P ∧
      exec (.fdiv d a b) s = .next { s with f := s.f.set d (some v), busy := false, done := true }

/-- R135 (R126): `F[a]^(P-2)` for every element but 0. -/
def Obligations.FinvResult : Prop :=
  ∀ (d a : FReg) (s : State) (x : Fe), regF s a = some x → x.val ≠ 0 →
    ∃ v : Fe, v.val = x.val ^ (Config.P - 2) % Config.P ∧
      exec (.finv d a) s = .next { s with f := s.f.set d (some v), busy := false, done := true }

/-- R126, R127, R129: the quotient times the divisor is the dividend, and an element times its inverse is 1 (`P` is prime). -/
def Obligations.DivisionInvertsMultiplication : Prop :=
  ∀ (d a b : FReg) (s : State) (x y : Fe), regF s a = some x → regF s b = some y → y.val ≠ 0 →
    (∃ (t : State) (v : Fe), exec (.fdiv d a b) s = .next t ∧ regF t d = some v ∧ v.val * y.val % Config.P = x.val) ∧
    (∃ (t : State) (v : Fe), exec (.finv d b) s = .next t ∧ regF t d = some v ∧ v.val * y.val % Config.P = 1)

/-- R134 (R125): the power by the whole 256-bit exponent, not reduced; exponent 0 gives 1. -/
def Obligations.FpowResult : Prop :=
  ∀ (d a : FReg) (e : KReg) (s : State) (x : Fe) (n : Scalar), regF s a = some x → regK s e = some n →
    ∃ v : Fe, v.val = x.val ^ n.toNat % Config.P ∧
      exec (.fpow d a e) s = .next { s with f := s.f.set d (some v), busy := false, done := true }

/-- R126, R127, R233: the inverse of 0 and any division by 0 fault `InvalidPoint` (code 2) and write nothing else. -/
def Obligations.ZeroDivisorFaults : Prop :=
  ∀ (d a b : FReg) (s : State) (x y : Fe), regF s a = some x → regF s b = some y → y.val = 0 →
    exec (.fdiv d a b) s =
      .next { s with busy := false, done := true, err := true, errcode := 2#8, errinfo := s.cmd } ∧
    exec (.finv d b) s =
      .next { s with busy := false, done := true, err := true, errcode := 2#8, errinfo := s.cmd }

/-- R136: `T` is written both ways and nothing else is. -/
def Obligations.FeqResult : Prop :=
  ∀ (a b : FReg) (s : State) (x y : Fe), regF s a = some x → regF s b = some y →
    exec (.feq a b) s = .next { s with t := decide (x.val = y.val), busy := false, done := true }

/-- R120: CW's generic operations fault `DomainMismatch` across moduli and are the block's at modulus `P`. -/
def Obligations.GenericFieldInstantiates : Prop :=
  (∀ (op : Int → Int → Int) (x y : FieldElement), x.modulus ≠ y.modulus → opGeneric op x y = .error .domainMismatch) ∧
  (∀ a b : Fe, opGeneric (· + ·) (genericOf a) (genericOf b) = .ok (genericOf (feAdd a b)) ∧
    opGeneric (· - ·) (genericOf a) (genericOf b) = .ok (genericOf (feSub a b)) ∧
    opGeneric (· * ·) (genericOf a) (genericOf b) = .ok (genericOf (feMul a b)))

/-! ### Point commands (41_point.md) -/

/-- R151 cases 1 to 3: a sum with `Infinity` is the other operand; a point and its inverse sum to `Infinity`, `Finite(x, 0)` with itself
among them. -/
def Obligations.PaddIdentityAndInverse : Prop :=
  ∀ (d a b : QReg) (s : State) (p q : Point), regQ s a = some p → regQ s b = some q →
    (p = .infinity →
      exec (.padd d a b) s = .next { s with q := s.q.set d (some q), busy := false, done := true }) ∧
    (q = .infinity →
      exec (.padd d a b) s = .next { s with q := s.q.set d (some p), busy := false, done := true }) ∧
    (∀ x py qy : Fe, p = .finite x py → q = .finite x qy → (py.val + qy.val) % Config.P = 0 →
      exec (.padd d a b) s = .next { s with q := s.q.set d (some .infinity), busy := false, done := true })

/-- R151 case 4: two equal points with `y ≠ 0` sum to the tangent's point. -/
def Obligations.PaddOfEqualPoints : Prop :=
  ∀ (d a b : QReg) (s : State) (x y : Fe), regQ s a = some (.finite x y) → regQ s b = some (.finite x y) → y.val ≠ 0 →
    ∃ x3 y3 : Fe, TangentPoint x.val y.val x3.val y3.val ∧
      exec (.padd d a b) s = .next { s with q := s.q.set d (some (.finite x3 y3)), busy := false, done := true }

/-- R151 case 5: two points with different `x` sum to the chord's point. -/
def Obligations.PaddOfChord : Prop :=
  ∀ (d a b : QReg) (s : State) (px py qx qy : Fe), regQ s a = some (.finite px py) → regQ s b = some (.finite qx qy) →
    px ≠ qx →
    ∃ x3 y3 : Fe, ChordPoint px.val py.val qx.val qy.val x3.val y3.val ∧
      exec (.padd d a b) s = .next { s with q := s.q.set d (some (.finite x3 y3)), busy := false, done := true }

/-- R153: equal `x` with `y` neither equal nor opposite faults `InvalidPoint` (code 2), and PADD faults so in no other case with valid
sources. -/
def Obligations.PaddFaultsExactlyOnClash : Prop :=
  ∀ (d a b : QReg) (s : State) (p q : Point), s.err = false → regQ s a = some p → regQ s b = some q →
    ((∃ t, exec (.padd d a b) s = .next t ∧ t.err = true) ↔
      ∃ x py qy : Fe, p = .finite x py ∧ q = .finite x qy ∧ py ≠ qy ∧ (py.val + qy.val) % Config.P ≠ 0) ∧
    (∀ t, exec (.padd d a b) s = .next t → t.err = true →
      t = { s with busy := false, done := true, err := true, errcode := 2#8, errinfo := s.cmd })

/-- R154, R159: PDBL never faults on a valid source: `Infinity` for `Infinity` and for `Finite(x, 0)`, else the tangent's point. -/
def Obligations.PdblResult : Prop :=
  ∀ (d a : QReg) (s : State) (p : Point), regQ s a = some p →
    ∃ r : Point, exec (.pdbl d a) s = .next { s with q := s.q.set d (some r), busy := false, done := true } ∧
      (p = .infinity → r = .infinity) ∧
      (∀ x y : Fe, p = .finite x y → y.val = 0 → r = .infinity) ∧
      (∀ x y : Fe, p = .finite x y → y.val ≠ 0 →
        ∃ x3 y3 : Fe, r = .finite x3 y3 ∧ TangentPoint x.val y.val x3.val y3.val)

/-- R159: PDBL and PADD of one register with itself have the same effect in every state. -/
def Obligations.PdblIsPaddOfSelf : Prop :=
  ∀ (d a : QReg) (s : State), exec (.pdbl d a) s = exec (.padd d a a) s

/-- R155: point addition is commutative on all register values, on the curve or not, a fault included. -/
def Obligations.PaddCommutes : Prop :=
  ∀ (d a b : QReg) (s : State), exec (.padd d a b) s = exec (.padd d b a) s

/-- R161 (R158): `T` is written with the equality of tagged points, and nothing else is. -/
def Obligations.PeqResult : Prop :=
  ∀ (a b : QReg) (s : State) (p q : Point), regQ s a = some p → regQ s b = some q →
    ((p = q → exec (.peq a b) s = .next { s with t := true, busy := false, done := true }) ∧
     (p ≠ q → exec (.peq a b) s = .next { s with t := false, busy := false, done := true }))

/-- R160: LDG writes the generator in every state; its coordinates are general knowledge (log 10). -/
def Obligations.LdgResult : Prop :=
  ∀ (d : QReg) (s : State), ∃ x y : Fe,
    x.val = 0x79BE667EF9DCBBAC55A06295CE870B07029BFCDB2DCE28D959F2815B16F81798 ∧
    y.val = 0x483ADA7726A3C4655DA4FBFC0E1108A8FD17B448A68554199C47D08FFB10D4B8 ∧
    exec (.ldg d) s = .next { s with q := s.q.set d (some (.finite x y)), busy := false, done := true }

/-! ### Scalar multiplication (42_scalar_mul.md) -/

/-- R172: `InvalidScalar` (code 3) for 0 and for every scalar not below `N`, whatever the base point; that the cache stays is the model's
choice (log 7). -/
def Obligations.SmulInvalidScalar : Prop :=
  ∀ (d b : QReg) (k : KReg) (s : State) (base : Point) (n : Scalar), regQ s b = some base → regK s k = some n →
    n.toNat = 0 ∨ Config.N ≤ n.toNat →
    exec (.smul d b k) s = .next { s with busy := false, done := true, err := true, errcode := 3#8, errinfo := s.cmd }

/-- R170, R171: the table's entry `i` is the `i`-fold double of the base, and the scalar multiple is the sum, from the left and from
`Infinity`, of the entries at the set bits in rising order. -/
def Obligations.ScalarMulSumsDoublings : Prop :=
  ∀ (n : Scalar) (base : Point), (tbl base).length = 256 ∧
    (∀ i, i < 256 → (tbl base)[i]? = some (ptDouble^[i] base)) ∧
    scalarMul n base =
      if n.toNat = 0 ∨ Config.N ≤ n.toNat then .error .invalidScalar
      else ((List.range 256).filter fun i => n.getLsbD i).foldlM (fun acc i => ptAdd acc (ptDouble^[i] base)) Point.infinity

/-- R174, R175: SMUL completes for every valid base point and every scalar in `[1, N-1]`, on the curve or not, with the multiple
of R171; `UTBL` becomes what R41 says, for a hit, for the generator and for a new base point. The premise on the cache is `BlockInv.cache`. -/
def Obligations.SmulCompletes : Prop :=
  ∀ (d b : QReg) (k : KReg) (s : State) (base : Point) (n : Scalar), CacheCoherent s →
    regQ s b = some base → regK s k = some n → 1 ≤ n.toNat → n.toNat < Config.N →
    ∃ r : Point, scalarMul n base = .ok r ∧
      exec (.smul d b k) s =
        .next { s with q := s.q.set d (some r), utbl := smulCache s.utbl base, busy := false, done := true }

/-- R175, corner cases: the scalar 1 copies, the scalar 2 doubles, and an infinite base gives `Infinity`. -/
def Obligations.SmulCornerCases : Prop :=
  ∀ (d b : QReg) (k : KReg) (s : State) (base : Point) (n : Scalar), CacheCoherent s →
    regQ s b = some base → regK s k = some n →
    (n.toNat = 1 → exec (.smul d b k) s =
      .next { s with q := s.q.set d (some base), utbl := smulCache s.utbl base, busy := false, done := true }) ∧
    (n.toNat = 2 → exec (.smul d b k) s =
      .next { s with q := s.q.set d (some (ptDouble base)), utbl := smulCache s.utbl base, busy := false, done := true }) ∧
    (base = .infinity → 1 ≤ n.toNat → n.toNat < Config.N → exec (.smul d b k) s =
      .next { s with q := s.q.set d (some .infinity), utbl := smulCache s.utbl base, busy := false, done := true })

/-- R41, R177: the cache is transparent: two states that differ in it alone step to states that differ in it alone. -/
def Obligations.CacheIsTransparent : Prop :=
  ∀ s t : State, CacheCoherent s → CacheCoherent t → SameVisible s t →
    ∃ s' t' : State, step s = .next s' ∧ step t = .next t' ∧ SameVisible s' t'

/-! ### Base58 (43_base58check.md) -/

/-- R190: the alphabet's 58 characters in order, all distinct; their ASCII codes are general knowledge (log 20). -/
def Obligations.AlphabetSpelled : Prop :=
  (List.finRange 58).map alph =
    "123456789ABCDEFGHJKLMNPQRSTUVWXYZabcdefghijkmnopqrstuvwxyz".toList.map (fun c => BitVec.ofNat 8 c.toNat) ∧
  (∀ i j : Fin 58, alph i = alph j → i = j)

/-- R191, R192, R193: the digits are the remainders by 58 until the value reaches zero; each leading zero byte gives one `'1'`; the
string is the `'1'`s and then the digits, most significant first (the spec's inference: log 20). -/
def Obligations.Base58ByDivision : Prop :=
  digits 0 = [] ∧
  (∀ v : Nat, 0 < v → ∃ r : Fin 58, r.val = v % 58 ∧ digits v = r :: digits (v / 58)) ∧
  (∀ (z : Nat) (b : Byte) (rest : List Byte), b ≠ 0x00#8 →
    b58Encode (List.replicate z 0x00#8 ++ b :: rest) =
      List.replicate z 0x31#8 ++ (digits (be (b :: rest))).reverse.map alph) ∧
  (∀ z : Nat, b58Encode (List.replicate z 0x00#8) = List.replicate z 0x31#8)

/-- R194, R195 (R193, R196, R197): the characters are stored from `dst`, `RLEN` is their number, nothing else changes; B58CHK converts
the payload followed by the first four bytes of its double digest. -/
def Obligations.Base58Results : Prop :=
  ∀ (dst src len : Nat) (s : State), src + len ≤ 256 →
    (len ≤ 64 → dst + (b58Encode (bytesAt s.buf src len)).length ≤ 256 →
      exec (.b58enc dst src len) s =
        .next { s with
          buf := setBytes s.buf dst (b58Encode (bytesAt s.buf src len)),
          rlen := BitVec.ofNat 8 (b58Encode (bytesAt s.buf src len)).length,
          busy := false, done := true }) ∧
    (∀ framed : List Byte, framed = bytesAt s.buf src len ++
        (Config.hash256 (Config.hash256 (bytesAt s.buf src len)).toList).toList.take 4 →
      len ≤ 60 → dst + (b58Encode framed).length ≤ 256 →
      exec (.b58chk dst src len) s =
        .next { s with
          buf := setBytes s.buf dst (b58Encode framed),
          rlen := BitVec.ofNat 8 (b58Encode framed).length,
          busy := false, done := true })

/-- R194, R195, R239: a length over the limit, a source that leaves `BUF`, or a string that does, is `BufferRange` (code 8), and
nothing is written. -/
def Obligations.Base58RangeFaults : Prop :=
  ∀ (dst src len : Nat) (s : State),
    (64 < len ∨ 256 < src + len ∨ 256 < dst + (b58Encode (bytesAt s.buf src len)).length →
      exec (.b58enc dst src len) s =
        .next { s with busy := false, done := true, err := true, errcode := 8#8, errinfo := s.cmd }) ∧
    (60 < len ∨ 256 < src + len ∨ 256 < dst + (b58Check (bytesAt s.buf src len)).length →
      exec (.b58chk dst src len) s =
        .next { s with busy := false, done := true, err := true, errcode := 8#8, errinfo := s.cmd })

/-- R193: a payload within the limit gives at most 88 characters, and 64 bytes of `0xFF` give 88. -/
def Obligations.Base58LengthBound : Prop :=
  (∀ payload : List Byte, payload.length ≤ 64 → (b58Encode payload).length ≤ 88) ∧
  (b58Encode (List.replicate 64 0xFF#8)).length = 88

/-- R198: the conversion and the framed conversion are injective on all byte strings. -/
def Obligations.Base58Injective : Prop :=
  (∀ x y : List Byte, b58Encode x = b58Encode y → x = y) ∧
  (∀ x y : List Byte, b58Check x = b58Check y → x = y)

/-! ### Transfer and system (44_transfer_system.md) -/

/-- R210: NOP completes and changes nothing else. -/
def Obligations.NopCompletes : Prop :=
  ∀ s : State, exec .nop s = .next { s with busy := false, done := true }

/-- R211, R213: 32 bytes, big-endian; LDF for every value below `P`, LDK for every value. -/
def Obligations.WordLoads : Prop :=
  ∀ (off : Nat) (s : State), off + 32 ≤ 256 →
    (∀ (r : FReg) (v : Fe), v.val = be (bytesAt s.buf off 32) →
      exec (.ldf r off) s = .next { s with f := s.f.set r (some v), busy := false, done := true }) ∧
    (∀ (r : KReg) (v : Scalar), v.toNat = be (bytesAt s.buf off 32) →
      exec (.ldk r off) s = .next { s with k := s.k.set r (some v), busy := false, done := true }) ∧
    be (bytesAt s.buf off 32) < 2 ^ 256

/-- R217 (R216): tag `0x00` loads `Infinity` whatever follows; tag `0x01` loads the pair of coordinates below `P`. -/
def Obligations.PointLoads : Prop :=
  ∀ (off : Nat) (s : State) (r : QReg), off + 65 ≤ 256 →
    (byteAt s.buf off = 0x00#8 →
      exec (.ldp r off) s = .next { s with q := s.q.set r (some .infinity), busy := false, done := true }) ∧
    (∀ x y : Fe, byteAt s.buf off = 0x01#8 → x.val = be (bytesAt s.buf (off + 1) 32) →
      y.val = be (bytesAt s.buf (off + 33) 32) →
      exec (.ldp r off) s = .next { s with q := s.q.set r (some (.finite x y)), busy := false, done := true })

/-- R238 (R211, R217): a value not below `P`, a tag that is neither `0x00` nor `0x01`, or a coordinate not below `P` under tag `0x01`, is
`OperandRange` (code 7); the value is not reduced. -/
def Obligations.LoadsRefuseBadValues : Prop :=
  ∀ (off : Nat) (s : State),
    (∀ r : FReg, off + 32 ≤ 256 → Config.P ≤ be (bytesAt s.buf off 32) →
      exec (.ldf r off) s =
        .next { s with busy := false, done := true, err := true, errcode := 7#8, errinfo := s.cmd }) ∧
    (∀ r : QReg, off + 65 ≤ 256 →
      (byteAt s.buf off ≠ 0x00#8 ∧ byteAt s.buf off ≠ 0x01#8) ∨
      (byteAt s.buf off = 0x01#8 ∧
        (Config.P ≤ be (bytesAt s.buf (off + 1) 32) ∨ Config.P ≤ be (bytesAt s.buf (off + 33) 32))) →
      exec (.ldp r off) s =
        .next { s with busy := false, done := true, err := true, errcode := 7#8, errinfo := s.cmd })

/-- R212, R214, R218 (R216): the stores write the 32 bytes of the value, or tag and coordinates, from `off`, and nothing else. -/
def Obligations.StoreResults : Prop :=
  ∀ (off : Nat) (s : State),
    (∀ (r : FReg) (v : Fe), regF s r = some v → off + 32 ≤ 256 →
      exec (.stf r off) s = .next { s with buf := setBytes s.buf off (bytes32 v.val), busy := false, done := true }) ∧
    (∀ (r : KReg) (v : Scalar), regK s r = some v → off + 32 ≤ 256 →
      exec (.stk r off) s = .next { s with buf := setBytes s.buf off (bytes32 v.toNat), busy := false, done := true }) ∧
    (∀ r : QReg, regQ s r = some .infinity → off + 65 ≤ 256 →
      exec (.stp r off) s =
        .next { s with buf := setBytes s.buf off (List.replicate 65 0x00#8), busy := false, done := true }) ∧
    (∀ (r : QReg) (x y : Fe), regQ s r = some (.finite x y) → off + 65 ≤ 256 →
      exec (.stp r off) s =
        .next { s with buf := setBytes s.buf off (0x01#8 :: (bytes32 x.val ++ bytes32 y.val)), busy := false, done := true })

/-- R215, R239, R245: an access that would leave `BUF` is `BufferRange` (code 8): 32 bytes above offset 224, 65 bytes above 191; a store
with an invalid source faults `UninitRegister` first, so the stores stand here with a valid one. -/
def Obligations.TransferRangeFaults : Prop :=
  ∀ (off : Nat) (s : State),
    (224 < off → ∀ (rf : FReg) (rk : KReg),
      exec (.ldf rf off) s =
        .next { s with busy := false, done := true, err := true, errcode := 8#8, errinfo := s.cmd } ∧
      exec (.ldk rk off) s =
        .next { s with busy := false, done := true, err := true, errcode := 8#8, errinfo := s.cmd } ∧
      (∀ v, regF s rf = some v → exec (.stf rf off) s =
        .next { s with busy := false, done := true, err := true, errcode := 8#8, errinfo := s.cmd }) ∧
      (∀ v, regK s rk = some v → exec (.stk rk off) s =
        .next { s with busy := false, done := true, err := true, errcode := 8#8, errinfo := s.cmd })) ∧
    (191 < off → ∀ r : QReg,
      exec (.ldp r off) s =
        .next { s with busy := false, done := true, err := true, errcode := 8#8, errinfo := s.cmd } ∧
      (∀ p, regQ s r = some p → exec (.stp r off) s =
        .next { s with busy := false, done := true, err := true, errcode := 8#8, errinfo := s.cmd }))

/-- R218, R219: STP then LDP of the same offset restores the point exactly; STF then LDF restores the element; STF then LDK always
succeeds and gives the same integer. -/
def Obligations.StoreThenLoadRestores : Prop :=
  ∀ (off : Nat) (s : State), Memory.wf s.buf = true →
    (∀ (r r' : QReg) (p : Point), regQ s r = some p → off + 65 ≤ 256 →
      ∃ t u : State, exec (.stp r off) s = .next t ∧ exec (.ldp r' off) t = .next u ∧ u.err = s.err ∧ regQ u r' = some p) ∧
    (∀ (r r' : FReg) (v : Fe), regF s r = some v → off + 32 ≤ 256 →
      ∃ t u : State, exec (.stf r off) s = .next t ∧ exec (.ldf r' off) t = .next u ∧ u.err = s.err ∧ regF u r' = some v) ∧
    (∀ (r : FReg) (r' : KReg) (v : Fe), regF s r = some v → off + 32 ≤ 256 →
      ∃ (t u : State) (n : Scalar), exec (.stf r off) s = .next t ∧ exec (.ldk r' off) t = .next u ∧ u.err = s.err ∧
        regK u r' = some n ∧ n.toNat = v.val)

/-! ### Frames -/

/-- R21, R22, R25, R23: no command changes a register but its destination, and one that faults changes none. -/
def Obligations.FrameOfRegisters : Prop :=
  ∀ (i : Instr) (s t : State), exec i s = .next t →
    (∀ r : FReg, destF i ≠ some r → regF t r = (regF s r)) ∧
    (∀ r : KReg, destK i ≠ some r → regK t r = (regK s r)) ∧
    (∀ r : QReg, destQ i ≠ some r → regQ t r = (regQ s r)) ∧
    (s.err = false → t.err = true → t.f = s.f ∧ t.k = s.k ∧ t.q = s.q)

/-- R29, R36, R240: `T` is written by FEQ and PEQ alone, `RLEN` by the Base58 commands alone, `UTBL` by SMUL alone; no command writes
`CMD`, `OVR` or `IEN`. -/
def Obligations.FrameOfStatus : Prop :=
  ∀ (i : Instr) (s t : State), exec i s = .next t →
    (writesT i = false → t.t = s.t) ∧ (writesRlen i = false → t.rlen = s.rlen) ∧
    ((∀ d b k, i ≠ .smul d b k) → t.utbl = s.utbl) ∧
    t.cmd = s.cmd ∧ t.ovr = s.ovr ∧ t.ien = s.ien ∧ t.sched = s.sched ∧ t.resp = s.resp

/-- R66, R194, R212 to R218: every byte of `BUF` outside the bytes a command stores reads as before; a command that stores nothing leaves
every byte. -/
def Obligations.FrameOfMemory : Prop :=
  ∀ (i : Instr) (s t : State), Memory.wf s.buf = true → exec i s = .next t →
    (stores i = false → ∀ a : Nat, byteAt t.buf a = byteAt s.buf a) ∧
    (∀ off n : Nat, storedRange i s = (off, n) → ∀ a : Nat, a < off ∨ off + n ≤ a → byteAt t.buf a = byteAt s.buf a)

/-- R23: no step but a reset clears a valid bit. -/
def Obligations.ValidBitsKept : Prop :=
  ∀ s t : State, step s = .next t → (∀ e rest, s.sched = e :: rest → resetsBlock e = false) →
    (∀ r : FReg, (regF s r).isSome = true → (regF t r).isSome = true) ∧
    (∀ r : KReg, (regK s r).isSome = true → (regK t r).isSome = true) ∧
    (∀ r : QReg, (regQ s r).isSome = true → (regQ t r).isSome = true)

/-! ### The host's side (20_memory.md, 10_state.md section 5) -/

/-- R70: an access is refused in exactly the six cases, and then `OVR <- 1` and `Err` are its only effects. -/
def Obligations.RefusedExactly : Prop :=
  ∀ (x : Access) (s : State),
    (refusedAccess x s = true → hostAccess x s = { s with ovr := true, resp := some .err }) ∧
    (refusedAccess x s = false → (hostAccess x s).resp ≠ some .err)

/-- R31 to R38, R71: every control register reads at its address in every state, and the read changes nothing. -/
def Obligations.ControlRegisterReads : Prop :=
  ∀ s : State,
    hostAccess ⟨32, 0x000#12, .read⟩ s = { s with resp := some (.okData 0x53454B31#32) } ∧
    hostAccess ⟨32, 0x004#12, .read⟩ s = { s with resp := some (.okData s.cmd) } ∧
    hostAccess ⟨32, 0x008#12, .read⟩ s = { s with resp := some (.okData (statusWord s)) } ∧
    hostAccess ⟨32, 0x00C#12, .read⟩ s = { s with resp := some (.okData (s.errcode.setWidth 32)) } ∧
    hostAccess ⟨32, 0x010#12, .read⟩ s = { s with resp := some (.okData s.errinfo) } ∧
    hostAccess ⟨32, 0x014#12, .read⟩ s = { s with resp := some (.okData (s.rlen.setWidth 32)) } ∧
    hostAccess ⟨32, 0x018#12, .read⟩ s = { s with resp := some (.okData 0#32) } ∧
    hostAccess ⟨32, 0x01C#12, .read⟩ s = { s with resp := some (.okData (s.ien.setWidth 32)) }

/-- R33, R39, R250: the bits of the `STATUS` word, the rest 0, and the interrupt line. -/
def Obligations.StatusWordAndInterrupt : Prop :=
  ∀ s : State,
    (statusWord s).getLsbD 0 = s.busy ∧ (statusWord s).getLsbD 1 = s.done ∧ (statusWord s).getLsbD 2 = s.err ∧
    (statusWord s).getLsbD 3 = s.t ∧ (statusWord s).getLsbD 4 = s.ovr ∧ (statusWord s).toNat < 32 ∧
    (irq s = true ↔ (s.ien.getLsbD 0 = true ∧ s.done = true) ∨ (s.ien.getLsbD 1 = true ∧ s.err = true))

/-- R63, R64: the word at `0x100 + 4i` is `BUF[4i..4i+3]`, big-endian, read and written while the block is idle, and every other byte is
left as it was; while `BUSY` both are refused. -/
def Obligations.BufWindowBigEndian : Prop :=
  ∀ (i : Nat) (s : State) (d : Word), i < 64 → Memory.wf s.buf = true →
    (s.busy = false →
      (∃ w : Word, hostAccess ⟨32, BitVec.ofNat 12 (0x100 + 4 * i), .read⟩ s = { s with resp := some (.okData w) } ∧
        w.toNat = (byteAt s.buf (4 * i)).toNat * 2 ^ 24 + (byteAt s.buf (4 * i + 1)).toNat * 2 ^ 16 +
          (byteAt s.buf (4 * i + 2)).toNat * 2 ^ 8 + (byteAt s.buf (4 * i + 3)).toNat) ∧
      (∃ m : Memory, hostAccess ⟨32, BitVec.ofNat 12 (0x100 + 4 * i), .write d⟩ s =
          { s with buf := m, resp := some .okWrite } ∧
        d.toNat = (byteAt m (4 * i)).toNat * 2 ^ 24 + (byteAt m (4 * i + 1)).toNat * 2 ^ 16 +
          (byteAt m (4 * i + 2)).toNat * 2 ^ 8 + (byteAt m (4 * i + 3)).toNat ∧
        ∀ a : Nat, a < 4 * i ∨ 4 * i + 4 ≤ a → byteAt m a = byteAt s.buf a)) ∧
    (s.busy = true →
      hostAccess ⟨32, BitVec.ofNat 12 (0x100 + 4 * i), .read⟩ s = { s with ovr := true, resp := some .err } ∧
      hostAccess ⟨32, BitVec.ofNat 12 (0x100 + 4 * i), .write d⟩ s = { s with ovr := true, resp := some .err })

/-- R37, R38, R242: what a write to `CTRL` clears, bit by bit, `SRST` overriding the rest; a write to `IEN` stores two bits. -/
def Obligations.CtrlAndIenWrites : Prop :=
  ∀ (d : Word) (s : State),
    (d.getLsbD 3 = true → busWrite 0x018#12 d s = some (resetBlock s)) ∧
    (d.getLsbD 3 = false → busWrite 0x018#12 d s = some { s with
      err := s.err && !d.getLsbD 0,
      errcode := if d.getLsbD 0 then 0#8 else s.errcode,
      errinfo := if d.getLsbD 0 then 0#32 else s.errinfo,
      done := s.done && !d.getLsbD 1,
      ovr := s.ovr && !d.getLsbD 2 }) ∧
    (∃ e : BitVec 2, busWrite 0x01C#12 d s = some { s with ien := e } ∧
      e.getLsbD 0 = d.getLsbD 0 ∧ e.getLsbD 1 = d.getLsbD 1)

/-- R44 (R46, R241): a `CMD` write to a ready block issues the word, whatever it is; to a busy or locked one it is refused. -/
def Obligations.IssueAndLockOut : Prop :=
  ∀ (w : Word) (s : State),
    (ready s = true →
      hostAccess ⟨32, 0x004#12, .write w⟩ s = { s with cmd := w, busy := true, done := false, resp := some .okWrite }) ∧
    (s.busy = true ∨ s.err = true →
      hostAccess ⟨32, 0x004#12, .write w⟩ s = { s with ovr := true, resp := some .err })

/-- R71, R72, R280: no host access but a reset touches a running command: its word, its registers, `BUF`, `T`, `RLEN` and the cache are as
they were, and it is still running. -/
def Obligations.RunningCommandUnaffected : Prop :=
  ∀ (x : Access) (s t : State), s.busy = true → resetsBlock (.access x) = false → hostAccess x s = t →
    t.busy = true ∧ t.cmd = s.cmd ∧ t.f = s.f ∧ t.k = s.k ∧ t.q = s.q ∧ t.buf = s.buf ∧ t.t = s.t ∧ t.rlen = s.rlen ∧
    t.utbl = s.utbl

/-! ### Whole-machine claims -/

/-- R285, R286, R272: after at most one step more than there are events to come `BUSY` has fallen, and if none of these events resets the
block it fell by completion: `DONE` is set, and `CMD` is the word that was running. The order of events is the model's `sched`
(logs 2, 3). -/
def Obligations.AcceptedCommandCompletes : Prop :=
  ∀ s : State, s.busy = true →
    ∃ (n : Nat) (t : State), n ≤ s.sched.length + 1 ∧ Host.Core.run Sys2Proof.core n s = .next t ∧ t.busy = false ∧
      ((∀ e ∈ s.sched, resetsBlock e = false) → t.done = true ∧ t.cmd = s.cmd)

/-- R47: the invariant holds at reset. -/
def Obligations.InvariantAtReset : Prop := BlockInv State.reset

/-- R33 to R36, R41, R243: every step keeps the invariant: the canonical form of `BUF`, `BUSY` without `ERR` and without `DONE`, the fault
record zero or of the word still in `CMD`, `RLEN` at most 88, the cache the table of its key. -/
def Obligations.StepKeepsInvariant : Prop :=
  ∀ s t : State, BlockInv s → step s = .next t → BlockInv t
end

