-- ==== Sys2Proof/Laws/Bytes.lean ====
section
/-! SUPPORT. Laws of byte strings and their big-endian values (00_scope.md R12). -/

namespace Sys2Proof.Machine

@[simp] theorem beBytes_length (n v : Nat) : (beBytes n v).length = n := by
  induction n with
  | zero => rfl
  | succ n ih => simp [beBytes, ih]

@[simp] theorem bytes32_length (v : Nat) : (bytes32 v).length = 32 := beBytes_length 32 v

/-- A byte string's value fits its length. -/
theorem be_lt (bs : List Byte) : be bs < 256 ^ bs.length := by
  induction bs with
  | nil => simp [be]
  | cons b rest ih =>
    have hb : b.toNat + 1 ≤ 256 := b.isLt
    calc be (b :: rest) < b.toNat * 256 ^ rest.length + 256 ^ rest.length := by simp [be]; omega
      _ = (b.toNat + 1) * 256 ^ rest.length := by ring
      _ ≤ 256 * 256 ^ rest.length := Nat.mul_le_mul_right _ hb
      _ = 256 ^ (b :: rest).length := by rw [List.length_cons, pow_succ]; ring

/-- Writing a value and reading it back keeps what fits. -/
theorem be_beBytes (n v : Nat) : be (beBytes n v) = v % 256 ^ n := by
  induction n with
  | zero => simp [beBytes, be, Nat.mod_one]
  | succ n ih =>
    have e : v % (256 ^ n * 256) = v % 256 ^ n + 256 ^ n * (v / 256 ^ n % 256) := Nat.mod_mul
    rw [pow_succ (256 : Nat) n, e, beBytes, be, ih, beBytes_length, BitVec.toNat_ofNat, Nat.add_comm, Nat.mul_comm]

theorem be_bytes32 {v : Nat} (h : v < 2 ^ 256) : be (bytes32 v) = v := by
  have e : (256 : Nat) ^ 32 = 2 ^ 256 := by norm_num
  rw [bytes32, be_beBytes, e, Nat.mod_eq_of_lt h]

theorem be_append (xs ys : List Byte) : be (xs ++ ys) = be xs * 256 ^ ys.length + be ys := by
  induction xs with
  | nil => simp [be]
  | cons x xs ih => simp only [List.cons_append, be, ih, List.length_append, pow_add]; ring

/-- A byte string is its length and its value (the other direction of `be_beBytes`). -/
theorem beBytes_be (bs : List Byte) : beBytes bs.length (be bs) = bs := by
  have key : ∀ (n k : Nat) (v : Nat), beBytes n (k * 256 ^ n + v) = beBytes n v := by
    intro n
    induction n with
    | zero => intros; rfl
    | succ n ih =>
      intro k v
      have e : k * 256 ^ (n + 1) + v = (k * 256) * 256 ^ n + v := by ring
      have hd : (k * 256 * 256 ^ n + v) / 256 ^ n = k * 256 + v / 256 ^ n := by
        rw [Nat.add_comm, Nat.add_mul_div_right _ _ (by positivity), Nat.add_comm]
      rw [beBytes, beBytes, e, hd, ih (k * 256) v]
      congr 1
      apply BitVec.eq_of_toNat_eq
      simp only [BitVec.toNat_ofNat]
      omega
  induction bs with
  | nil => rfl
  | cons b rest ih =>
    have hl := be_lt rest
    have hd : (b.toNat * 256 ^ rest.length + be rest) / 256 ^ rest.length = b.toNat := by
      rw [Nat.add_comm, Nat.add_mul_div_right _ _ (by positivity), Nat.div_eq_of_lt hl, Nat.zero_add]
    rw [List.length_cons, be, beBytes, hd, key, ih, BitVec.ofNat_toNat, BitVec.setWidth_eq]

end Sys2Proof.Machine
end

