-- ==== Sys2Proof/Laws/Memory.lean ====
section
/-! SUPPORT. Laws of `BUF`: a read after a write, the canonical form kept by every memory operation, and equality of
canonical memories byte by byte (20_memory.md R66). -/

namespace Sys2Proof.Machine

/-! ### Reading -/

@[simp] theorem byteAt_nil (i : Nat) : byteAt [] i = unlistedByte := rfl

theorem byteAt_cons (a : Nat) (b : Byte) (m : Memory) (i : Nat) :
    byteAt ((a, b) :: m) i = if i = a then b else byteAt m i := rfl

theorem byteAt_consCell (i : Nat) (v : Byte) (m : Memory) (j : Nat) (h : byteAt m i = unlistedByte) :
    byteAt (consCell i v m) j = if j = i then v else byteAt m j := by
  unfold consCell
  split
  · rename_i hv
    by_cases hj : j = i
    · simp [hj, h, hv]
    · simp [hj]
  · simp [byteAt]

/-- Below the lower bound of a canonical memory nothing is listed. -/
theorem byteAt_below {lo i : Nat} {m : Memory} (h : Memory.wfFrom lo m = true) (hi : i < lo) :
    byteAt m i = unlistedByte := by
  induction m generalizing lo with
  | nil => rfl
  | cons c m ih =>
    obtain ⟨a, b⟩ := c
    simp only [Memory.wfFrom, Bool.and_eq_true, decide_eq_true_eq] at h
    rw [byteAt, if_neg (by omega)]
    exact ih h.2 (by omega)

/-- Read after write: the byte written at its place, every other byte as before. -/
theorem byteAt_setByte {lo : Nat} {m : Memory} (h : Memory.wfFrom lo m = true) (i : Nat) (v : Byte) (j : Nat) :
    byteAt (setByte m i v) j = if j = i then v else byteAt m j := by
  induction m generalizing lo with
  | nil => exact byteAt_consCell i v [] j rfl
  | cons c m ih =>
    obtain ⟨a, b⟩ := c
    have hw := h
    simp only [Memory.wfFrom, Bool.and_eq_true, decide_eq_true_eq] at h
    unfold setByte
    split
    · rename_i hia
      refine byteAt_consCell i v _ j ?_
      rw [byteAt, if_neg (by omega)]
      exact byteAt_below h.2 (by omega)
    · split
      · rename_i hia
        subst hia
        rw [byteAt_consCell _ _ _ _ (byteAt_below h.2 (by omega))]
        by_cases hj : j = i <;> simp [hj, byteAt]
      · rw [byteAt, byteAt, ih h.2]
        by_cases hja : j = a <;> by_cases hji : j = i <;> simp_all

/-! ### The canonical form -/

theorem wfFrom_weaken {lo lo' : Nat} {m : Memory} (h : Memory.wfFrom lo m = true) (hl : lo' ≤ lo) :
    Memory.wfFrom lo' m = true := by
  cases m with
  | nil => rfl
  | cons c m =>
    simp only [Memory.wfFrom, Bool.and_eq_true, decide_eq_true_eq] at h ⊢
    exact ⟨⟨⟨by omega, h.1.1.2⟩, h.1.2⟩, h.2⟩

theorem wfFrom_consCell {i : Nat} {v : Byte} {m : Memory} (h : Memory.wfFrom (i + 1) m = true)
    (hi : i < Config.bufSize) : Memory.wfFrom i (consCell i v m) = true := by
  unfold consCell
  split
  · exact wfFrom_weaken h (by omega)
  · rename_i hv
    simp [Memory.wfFrom, hi, hv, h]

theorem wfFrom_setByte {lo : Nat} {m : Memory} (h : Memory.wfFrom lo m = true) {i : Nat} (hlo : lo ≤ i)
    (hi : i < Config.bufSize) (v : Byte) : Memory.wfFrom lo (setByte m i v) = true := by
  induction m generalizing lo with
  | nil => exact wfFrom_weaken (wfFrom_consCell rfl hi) hlo
  | cons c m ih =>
    obtain ⟨a, b⟩ := c
    have hw := h
    simp only [Memory.wfFrom, Bool.and_eq_true, decide_eq_true_eq] at h
    unfold setByte
    split
    · rename_i hia
      refine wfFrom_weaken (wfFrom_consCell ?_ hi) hlo
      simp only [Memory.wfFrom, Bool.and_eq_true, decide_eq_true_eq]
      exact ⟨⟨⟨by omega, h.1.1.2⟩, h.1.2⟩, h.2⟩
    · split
      · rename_i hia
        exact wfFrom_weaken (wfFrom_consCell (hia ▸ h.2) hi) hlo
      · simp only [Memory.wfFrom, Bool.and_eq_true, decide_eq_true_eq]
        exact ⟨h.1, ih h.2 (by omega)⟩

/-- Storing a byte inside `BUF` keeps the canonical form. -/
theorem wf_setByte {m : Memory} (h : Memory.wf m = true) {i : Nat} (hi : i < Config.bufSize) (v : Byte) :
    Memory.wf (setByte m i v) = true := wfFrom_setByte h (Nat.zero_le i) hi v

/-- Storing a byte string inside `BUF` keeps the canonical form. -/
theorem wf_setBytes {m : Memory} (h : Memory.wf m = true) {off : Nat} {bs : List Byte}
    (hi : off + bs.length ≤ Config.bufSize) : Memory.wf (setBytes m off bs) = true := by
  induction bs generalizing m off with
  | nil => exact h
  | cons b bs ih =>
    rw [List.length_cons] at hi
    exact ih (wf_setByte h (by omega) b) (by omega)

/-- Whatever `MemWrite` answers is in the canonical form. -/
theorem wf_memWrite {m m' : Memory} (h : Memory.wf m = true) {off : Nat} {bs : List Byte}
    (hw : memWrite m off bs = .ok m') : Memory.wf m' = true := by
  unfold memWrite at hw
  split at hw
  · cases hw
  · cases hw
    exact wf_setBytes h (by omega)

/-- A word write of the host's window keeps the canonical form. -/
theorem wf_setBufWord {m : Memory} (h : Memory.wf m = true) {off : Nat} (hi : off + 4 ≤ Config.bufSize) (d : Word) :
    Memory.wf (setBufWord m off d) = true :=
  wf_setBytes h (by simpa using hi)

theorem wf_reset : Memory.wf State.reset.buf = true := rfl

/-- An offset outside `BUF` is never listed. -/
theorem byteAt_above {lo i : Nat} {m : Memory} (h : Memory.wfFrom lo m = true) (hi : Config.bufSize ≤ i) :
    byteAt m i = unlistedByte := by
  induction m generalizing lo with
  | nil => rfl
  | cons c m ih =>
    obtain ⟨a, b⟩ := c
    simp only [Memory.wfFrom, Bool.and_eq_true, decide_eq_true_eq] at h
    rw [byteAt, if_neg (by omega)]
    exact ih h.2

/-- Canonical memories that read the same are the same data. -/
theorem memory_ext {lo : Nat} {m n : Memory} (hm : Memory.wfFrom lo m = true) (hn : Memory.wfFrom lo n = true)
    (h : ∀ i, byteAt m i = byteAt n i) : m = n := by
  induction m generalizing lo n with
  | nil =>
    cases n with
    | nil => rfl
    | cons c n =>
      obtain ⟨a, b⟩ := c
      simp only [Memory.wfFrom, Bool.and_eq_true, decide_eq_true_eq] at hn
      have := h a
      rw [byteAt_cons, if_pos rfl, byteAt_nil] at this
      exact absurd this.symm hn.1.2
  | cons c m ih =>
    obtain ⟨a, b⟩ := c
    have hm' := hm
    simp only [Memory.wfFrom, Bool.and_eq_true, decide_eq_true_eq] at hm
    cases n with
    | nil =>
      have := h a
      rw [byteAt_cons, if_pos rfl, byteAt_nil] at this
      exact absurd this hm.1.2
    | cons c' n =>
      obtain ⟨a', b'⟩ := c'
      have hn' := hn
      simp only [Memory.wfFrom, Bool.and_eq_true, decide_eq_true_eq] at hn
      have haa : a = a' := by
        by_contra hne
        rcases Nat.lt_or_gt_of_ne hne with hlt | hlt
        · have := h a
          rw [byteAt_cons, if_pos rfl, byteAt_cons, if_neg hne, byteAt_below hn.2 (by omega)] at this
          exact hm.1.2 this
        · have := h a'
          rw [byteAt_cons, if_neg (by omega), byteAt_below hm.2 (by omega), byteAt_cons, if_pos rfl] at this
          exact hn.1.2 this.symm
      subst haa
      have hb : b = b' := by simpa [byteAt] using h a
      subst hb
      have : m = n := ih hm.2 hn.2 fun i => by
        by_cases hi : i = a
        · subst hi
          rw [byteAt_below hm.2 (by omega), byteAt_below hn.2 (by omega)]
        · simpa [byteAt, hi] using h i
      rw [this]

/-! ### Byte strings -/

@[simp] theorem bytesAt_length (m : Memory) (off n : Nat) : (bytesAt m off n).length = n := by
  induction n generalizing off with
  | zero => rfl
  | succ n ih => simp [bytesAt, ih]

/-- A read in two parts. -/
theorem bytesAt_add (m : Memory) (off a b : Nat) : bytesAt m off (a + b) = bytesAt m off a ++ bytesAt m (off + a) b := by
  induction a generalizing off with
  | zero => simp [bytesAt]
  | succ a ih => rw [Nat.succ_add, bytesAt, bytesAt, ih, List.cons_append, Nat.add_right_comm, Nat.add_assoc]

/-- Reads see only the bytes they name. -/
theorem bytesAt_congr {m m' : Memory} {off n : Nat} (h : ∀ i, off ≤ i → i < off + n → byteAt m i = byteAt m' i) :
    bytesAt m off n = bytesAt m' off n := by
  induction n generalizing off with
  | zero => rfl
  | succ n ih =>
    rw [bytesAt, bytesAt, h off le_rfl (by omega), ih fun i h1 h2 => h i (by omega) (by omega)]

/-- A byte outside the bytes stored reads as before. -/
theorem byteAt_setBytes_of_outside {m : Memory} (h : Memory.wf m = true) {off : Nat} {bs : List Byte}
    (hi : off + bs.length ≤ Config.bufSize) {j : Nat} (hj : j < off ∨ off + bs.length ≤ j) :
    byteAt (setBytes m off bs) j = byteAt m j := by
  induction bs generalizing m off with
  | nil => rfl
  | cons b bs ih =>
    rw [List.length_cons] at hi hj
    rw [setBytes, ih (wf_setByte h (by omega) b) (by omega) (by omega), byteAt_setByte h, if_neg (by omega)]

/-- The bytes stored read back as they were stored. -/
theorem bytesAt_setBytes {m : Memory} (h : Memory.wf m = true) {off : Nat} {bs : List Byte}
    (hi : off + bs.length ≤ Config.bufSize) : bytesAt (setBytes m off bs) off bs.length = bs := by
  induction bs generalizing m off with
  | nil => rfl
  | cons b bs ih =>
    rw [List.length_cons] at hi
    have hw := wf_setByte h (show off < Config.bufSize by omega) b
    rw [List.length_cons, bytesAt, setBytes, ih hw (by omega),
      byteAt_setBytes_of_outside hw (by omega) (Or.inl (by omega)), byteAt_setByte h, if_pos rfl]

/-! ### The range-checked accesses -/

/-- `MemRead` inside `BUF` answers the bytes (20_memory.md R66). -/
theorem memRead_ok {m : Memory} {off n : Nat} (h : off + n ≤ Config.bufSize) : memRead m off n = .ok (bytesAt m off n) := by
  rw [memRead, if_neg (by omega)]

/-- `MemRead` that would leave `BUF` is `BufferRange` (20_memory.md R66). -/
theorem memRead_error {m : Memory} {off n : Nat} (h : Config.bufSize < off + n) : memRead m off n = .error .bufferRange := by
  rw [memRead, if_pos h]

/-- `MemWrite` inside `BUF` stores the bytes (20_memory.md R66). -/
theorem memWrite_ok {m : Memory} {off : Nat} {bs : List Byte} (h : off + bs.length ≤ Config.bufSize) :
    memWrite m off bs = .ok (setBytes m off bs) := by
  rw [memWrite, if_neg (by omega)]

/-- `MemWrite` that would leave `BUF` is `BufferRange` (20_memory.md R66). -/
theorem memWrite_error {m : Memory} {off : Nat} {bs : List Byte} (h : Config.bufSize < off + bs.length) :
    memWrite m off bs = .error .bufferRange := by
  rw [memWrite, if_pos h]

end Sys2Proof.Machine
end

