-- ==== Sys2Proof/Laws/State.lean ====
section
/-! SUPPORT. One lemma per field per state update, all true by `rfl`, so that no proof unfolds a record update. -/

namespace Sys2Proof.Machine

variable (s : State)

/-! ### `setF` -/

@[simp] theorem setF_f (d : FReg) (v : Fe) : (setF s d v).f = s.f.set d (some v) := rfl
@[simp] theorem setF_k (d : FReg) (v : Fe) : (setF s d v).k = s.k := rfl
@[simp] theorem setF_q (d : FReg) (v : Fe) : (setF s d v).q = s.q := rfl
@[simp] theorem setF_buf (d : FReg) (v : Fe) : (setF s d v).buf = s.buf := rfl
@[simp] theorem setF_cmd (d : FReg) (v : Fe) : (setF s d v).cmd = s.cmd := rfl
@[simp] theorem setF_busy (d : FReg) (v : Fe) : (setF s d v).busy = s.busy := rfl
@[simp] theorem setF_done (d : FReg) (v : Fe) : (setF s d v).done = s.done := rfl
@[simp] theorem setF_err (d : FReg) (v : Fe) : (setF s d v).err = s.err := rfl
@[simp] theorem setF_t (d : FReg) (v : Fe) : (setF s d v).t = s.t := rfl
@[simp] theorem setF_ovr (d : FReg) (v : Fe) : (setF s d v).ovr = s.ovr := rfl
@[simp] theorem setF_errcode (d : FReg) (v : Fe) : (setF s d v).errcode = s.errcode := rfl
@[simp] theorem setF_errinfo (d : FReg) (v : Fe) : (setF s d v).errinfo = s.errinfo := rfl
@[simp] theorem setF_rlen (d : FReg) (v : Fe) : (setF s d v).rlen = s.rlen := rfl
@[simp] theorem setF_ien (d : FReg) (v : Fe) : (setF s d v).ien = s.ien := rfl
@[simp] theorem setF_utbl (d : FReg) (v : Fe) : (setF s d v).utbl = s.utbl := rfl
@[simp] theorem setF_sched (d : FReg) (v : Fe) : (setF s d v).sched = s.sched := rfl
@[simp] theorem setF_resp (d : FReg) (v : Fe) : (setF s d v).resp = s.resp := rfl

/-! ### `setK` -/

@[simp] theorem setK_f (d : KReg) (v : Scalar) : (setK s d v).f = s.f := rfl
@[simp] theorem setK_k (d : KReg) (v : Scalar) : (setK s d v).k = s.k.set d (some v) := rfl
@[simp] theorem setK_q (d : KReg) (v : Scalar) : (setK s d v).q = s.q := rfl
@[simp] theorem setK_buf (d : KReg) (v : Scalar) : (setK s d v).buf = s.buf := rfl
@[simp] theorem setK_cmd (d : KReg) (v : Scalar) : (setK s d v).cmd = s.cmd := rfl
@[simp] theorem setK_busy (d : KReg) (v : Scalar) : (setK s d v).busy = s.busy := rfl
@[simp] theorem setK_done (d : KReg) (v : Scalar) : (setK s d v).done = s.done := rfl
@[simp] theorem setK_err (d : KReg) (v : Scalar) : (setK s d v).err = s.err := rfl
@[simp] theorem setK_t (d : KReg) (v : Scalar) : (setK s d v).t = s.t := rfl
@[simp] theorem setK_ovr (d : KReg) (v : Scalar) : (setK s d v).ovr = s.ovr := rfl
@[simp] theorem setK_errcode (d : KReg) (v : Scalar) : (setK s d v).errcode = s.errcode := rfl
@[simp] theorem setK_errinfo (d : KReg) (v : Scalar) : (setK s d v).errinfo = s.errinfo := rfl
@[simp] theorem setK_rlen (d : KReg) (v : Scalar) : (setK s d v).rlen = s.rlen := rfl
@[simp] theorem setK_ien (d : KReg) (v : Scalar) : (setK s d v).ien = s.ien := rfl
@[simp] theorem setK_utbl (d : KReg) (v : Scalar) : (setK s d v).utbl = s.utbl := rfl
@[simp] theorem setK_sched (d : KReg) (v : Scalar) : (setK s d v).sched = s.sched := rfl
@[simp] theorem setK_resp (d : KReg) (v : Scalar) : (setK s d v).resp = s.resp := rfl

/-! ### `setQ` -/

@[simp] theorem setQ_f (d : QReg) (v : Point) : (setQ s d v).f = s.f := rfl
@[simp] theorem setQ_k (d : QReg) (v : Point) : (setQ s d v).k = s.k := rfl
@[simp] theorem setQ_q (d : QReg) (v : Point) : (setQ s d v).q = s.q.set d (some v) := rfl
@[simp] theorem setQ_buf (d : QReg) (v : Point) : (setQ s d v).buf = s.buf := rfl
@[simp] theorem setQ_cmd (d : QReg) (v : Point) : (setQ s d v).cmd = s.cmd := rfl
@[simp] theorem setQ_busy (d : QReg) (v : Point) : (setQ s d v).busy = s.busy := rfl
@[simp] theorem setQ_done (d : QReg) (v : Point) : (setQ s d v).done = s.done := rfl
@[simp] theorem setQ_err (d : QReg) (v : Point) : (setQ s d v).err = s.err := rfl
@[simp] theorem setQ_t (d : QReg) (v : Point) : (setQ s d v).t = s.t := rfl
@[simp] theorem setQ_ovr (d : QReg) (v : Point) : (setQ s d v).ovr = s.ovr := rfl
@[simp] theorem setQ_errcode (d : QReg) (v : Point) : (setQ s d v).errcode = s.errcode := rfl
@[simp] theorem setQ_errinfo (d : QReg) (v : Point) : (setQ s d v).errinfo = s.errinfo := rfl
@[simp] theorem setQ_rlen (d : QReg) (v : Point) : (setQ s d v).rlen = s.rlen := rfl
@[simp] theorem setQ_ien (d : QReg) (v : Point) : (setQ s d v).ien = s.ien := rfl
@[simp] theorem setQ_utbl (d : QReg) (v : Point) : (setQ s d v).utbl = s.utbl := rfl
@[simp] theorem setQ_sched (d : QReg) (v : Point) : (setQ s d v).sched = s.sched := rfl
@[simp] theorem setQ_resp (d : QReg) (v : Point) : (setQ s d v).resp = s.resp := rfl

/-! ### `setT` -/

@[simp] theorem setT_f (b : Bool) : (setT s b).f = s.f := rfl
@[simp] theorem setT_k (b : Bool) : (setT s b).k = s.k := rfl
@[simp] theorem setT_q (b : Bool) : (setT s b).q = s.q := rfl
@[simp] theorem setT_buf (b : Bool) : (setT s b).buf = s.buf := rfl
@[simp] theorem setT_cmd (b : Bool) : (setT s b).cmd = s.cmd := rfl
@[simp] theorem setT_busy (b : Bool) : (setT s b).busy = s.busy := rfl
@[simp] theorem setT_done (b : Bool) : (setT s b).done = s.done := rfl
@[simp] theorem setT_err (b : Bool) : (setT s b).err = s.err := rfl
@[simp] theorem setT_t (b : Bool) : (setT s b).t = b := rfl
@[simp] theorem setT_ovr (b : Bool) : (setT s b).ovr = s.ovr := rfl
@[simp] theorem setT_errcode (b : Bool) : (setT s b).errcode = s.errcode := rfl
@[simp] theorem setT_errinfo (b : Bool) : (setT s b).errinfo = s.errinfo := rfl
@[simp] theorem setT_rlen (b : Bool) : (setT s b).rlen = s.rlen := rfl
@[simp] theorem setT_ien (b : Bool) : (setT s b).ien = s.ien := rfl
@[simp] theorem setT_utbl (b : Bool) : (setT s b).utbl = s.utbl := rfl
@[simp] theorem setT_sched (b : Bool) : (setT s b).sched = s.sched := rfl
@[simp] theorem setT_resp (b : Bool) : (setT s b).resp = s.resp := rfl

/-! ### `completeOk` -/

@[simp] theorem completeOk_f : (completeOk s).f = s.f := rfl
@[simp] theorem completeOk_k : (completeOk s).k = s.k := rfl
@[simp] theorem completeOk_q : (completeOk s).q = s.q := rfl
@[simp] theorem completeOk_buf : (completeOk s).buf = s.buf := rfl
@[simp] theorem completeOk_cmd : (completeOk s).cmd = s.cmd := rfl
@[simp] theorem completeOk_busy : (completeOk s).busy = false := rfl
@[simp] theorem completeOk_done : (completeOk s).done = true := rfl
@[simp] theorem completeOk_err : (completeOk s).err = s.err := rfl
@[simp] theorem completeOk_t : (completeOk s).t = s.t := rfl
@[simp] theorem completeOk_ovr : (completeOk s).ovr = s.ovr := rfl
@[simp] theorem completeOk_errcode : (completeOk s).errcode = s.errcode := rfl
@[simp] theorem completeOk_errinfo : (completeOk s).errinfo = s.errinfo := rfl
@[simp] theorem completeOk_rlen : (completeOk s).rlen = s.rlen := rfl
@[simp] theorem completeOk_ien : (completeOk s).ien = s.ien := rfl
@[simp] theorem completeOk_utbl : (completeOk s).utbl = s.utbl := rfl
@[simp] theorem completeOk_sched : (completeOk s).sched = s.sched := rfl
@[simp] theorem completeOk_resp : (completeOk s).resp = s.resp := rfl

/-! ### `raiseFault` -/

@[simp] theorem raiseFault_f (c : FaultCode) : (raiseFault c s).f = s.f := rfl
@[simp] theorem raiseFault_k (c : FaultCode) : (raiseFault c s).k = s.k := rfl
@[simp] theorem raiseFault_q (c : FaultCode) : (raiseFault c s).q = s.q := rfl
@[simp] theorem raiseFault_buf (c : FaultCode) : (raiseFault c s).buf = s.buf := rfl
@[simp] theorem raiseFault_cmd (c : FaultCode) : (raiseFault c s).cmd = s.cmd := rfl
@[simp] theorem raiseFault_busy (c : FaultCode) : (raiseFault c s).busy = false := rfl
@[simp] theorem raiseFault_done (c : FaultCode) : (raiseFault c s).done = true := rfl
@[simp] theorem raiseFault_err (c : FaultCode) : (raiseFault c s).err = true := rfl
@[simp] theorem raiseFault_t (c : FaultCode) : (raiseFault c s).t = s.t := rfl
@[simp] theorem raiseFault_ovr (c : FaultCode) : (raiseFault c s).ovr = s.ovr := rfl
@[simp] theorem raiseFault_errcode (c : FaultCode) : (raiseFault c s).errcode = codeByte c := rfl
@[simp] theorem raiseFault_errinfo (c : FaultCode) : (raiseFault c s).errinfo = s.cmd := rfl
@[simp] theorem raiseFault_rlen (c : FaultCode) : (raiseFault c s).rlen = s.rlen := rfl
@[simp] theorem raiseFault_ien (c : FaultCode) : (raiseFault c s).ien = s.ien := rfl
@[simp] theorem raiseFault_utbl (c : FaultCode) : (raiseFault c s).utbl = s.utbl := rfl
@[simp] theorem raiseFault_sched (c : FaultCode) : (raiseFault c s).sched = s.sched := rfl
@[simp] theorem raiseFault_resp (c : FaultCode) : (raiseFault c s).resp = s.resp := rfl

/-! ### `clearFault` -/

@[simp] theorem clearFault_f : (clearFault s).f = s.f := rfl
@[simp] theorem clearFault_k : (clearFault s).k = s.k := rfl
@[simp] theorem clearFault_q : (clearFault s).q = s.q := rfl
@[simp] theorem clearFault_buf : (clearFault s).buf = s.buf := rfl
@[simp] theorem clearFault_cmd : (clearFault s).cmd = s.cmd := rfl
@[simp] theorem clearFault_busy : (clearFault s).busy = s.busy := rfl
@[simp] theorem clearFault_done : (clearFault s).done = s.done := rfl
@[simp] theorem clearFault_err : (clearFault s).err = false := rfl
@[simp] theorem clearFault_t : (clearFault s).t = s.t := rfl
@[simp] theorem clearFault_ovr : (clearFault s).ovr = s.ovr := rfl
@[simp] theorem clearFault_errcode : (clearFault s).errcode = 0#8 := rfl
@[simp] theorem clearFault_errinfo : (clearFault s).errinfo = 0#32 := rfl
@[simp] theorem clearFault_rlen : (clearFault s).rlen = s.rlen := rfl
@[simp] theorem clearFault_ien : (clearFault s).ien = s.ien := rfl
@[simp] theorem clearFault_utbl : (clearFault s).utbl = s.utbl := rfl
@[simp] theorem clearFault_sched : (clearFault s).sched = s.sched := rfl
@[simp] theorem clearFault_resp : (clearFault s).resp = s.resp := rfl

/-! ### `clearDone` -/

@[simp] theorem clearDone_f : (clearDone s).f = s.f := rfl
@[simp] theorem clearDone_k : (clearDone s).k = s.k := rfl
@[simp] theorem clearDone_q : (clearDone s).q = s.q := rfl
@[simp] theorem clearDone_buf : (clearDone s).buf = s.buf := rfl
@[simp] theorem clearDone_cmd : (clearDone s).cmd = s.cmd := rfl
@[simp] theorem clearDone_busy : (clearDone s).busy = s.busy := rfl
@[simp] theorem clearDone_done : (clearDone s).done = false := rfl
@[simp] theorem clearDone_err : (clearDone s).err = s.err := rfl
@[simp] theorem clearDone_t : (clearDone s).t = s.t := rfl
@[simp] theorem clearDone_ovr : (clearDone s).ovr = s.ovr := rfl
@[simp] theorem clearDone_errcode : (clearDone s).errcode = s.errcode := rfl
@[simp] theorem clearDone_errinfo : (clearDone s).errinfo = s.errinfo := rfl
@[simp] theorem clearDone_rlen : (clearDone s).rlen = s.rlen := rfl
@[simp] theorem clearDone_ien : (clearDone s).ien = s.ien := rfl
@[simp] theorem clearDone_utbl : (clearDone s).utbl = s.utbl := rfl
@[simp] theorem clearDone_sched : (clearDone s).sched = s.sched := rfl
@[simp] theorem clearDone_resp : (clearDone s).resp = s.resp := rfl

/-! ### `clearOvr` -/

@[simp] theorem clearOvr_f : (clearOvr s).f = s.f := rfl
@[simp] theorem clearOvr_k : (clearOvr s).k = s.k := rfl
@[simp] theorem clearOvr_q : (clearOvr s).q = s.q := rfl
@[simp] theorem clearOvr_buf : (clearOvr s).buf = s.buf := rfl
@[simp] theorem clearOvr_cmd : (clearOvr s).cmd = s.cmd := rfl
@[simp] theorem clearOvr_busy : (clearOvr s).busy = s.busy := rfl
@[simp] theorem clearOvr_done : (clearOvr s).done = s.done := rfl
@[simp] theorem clearOvr_err : (clearOvr s).err = s.err := rfl
@[simp] theorem clearOvr_t : (clearOvr s).t = s.t := rfl
@[simp] theorem clearOvr_ovr : (clearOvr s).ovr = false := rfl
@[simp] theorem clearOvr_errcode : (clearOvr s).errcode = s.errcode := rfl
@[simp] theorem clearOvr_errinfo : (clearOvr s).errinfo = s.errinfo := rfl
@[simp] theorem clearOvr_rlen : (clearOvr s).rlen = s.rlen := rfl
@[simp] theorem clearOvr_ien : (clearOvr s).ien = s.ien := rfl
@[simp] theorem clearOvr_utbl : (clearOvr s).utbl = s.utbl := rfl
@[simp] theorem clearOvr_sched : (clearOvr s).sched = s.sched := rfl
@[simp] theorem clearOvr_resp : (clearOvr s).resp = s.resp := rfl

/-! ### `issueWord` -/

@[simp] theorem issueWord_f (w : Word) : (issueWord w s).f = s.f := rfl
@[simp] theorem issueWord_k (w : Word) : (issueWord w s).k = s.k := rfl
@[simp] theorem issueWord_q (w : Word) : (issueWord w s).q = s.q := rfl
@[simp] theorem issueWord_buf (w : Word) : (issueWord w s).buf = s.buf := rfl
@[simp] theorem issueWord_cmd (w : Word) : (issueWord w s).cmd = w := rfl
@[simp] theorem issueWord_busy (w : Word) : (issueWord w s).busy = true := rfl
@[simp] theorem issueWord_done (w : Word) : (issueWord w s).done = false := rfl
@[simp] theorem issueWord_err (w : Word) : (issueWord w s).err = s.err := rfl
@[simp] theorem issueWord_t (w : Word) : (issueWord w s).t = s.t := rfl
@[simp] theorem issueWord_ovr (w : Word) : (issueWord w s).ovr = s.ovr := rfl
@[simp] theorem issueWord_errcode (w : Word) : (issueWord w s).errcode = s.errcode := rfl
@[simp] theorem issueWord_errinfo (w : Word) : (issueWord w s).errinfo = s.errinfo := rfl
@[simp] theorem issueWord_rlen (w : Word) : (issueWord w s).rlen = s.rlen := rfl
@[simp] theorem issueWord_ien (w : Word) : (issueWord w s).ien = s.ien := rfl
@[simp] theorem issueWord_utbl (w : Word) : (issueWord w s).utbl = s.utbl := rfl
@[simp] theorem issueWord_sched (w : Word) : (issueWord w s).sched = s.sched := rfl
@[simp] theorem issueWord_resp (w : Word) : (issueWord w s).resp = s.resp := rfl

/-! ### `refuseAccess` -/

@[simp] theorem refuseAccess_f : (refuseAccess s).f = s.f := rfl
@[simp] theorem refuseAccess_k : (refuseAccess s).k = s.k := rfl
@[simp] theorem refuseAccess_q : (refuseAccess s).q = s.q := rfl
@[simp] theorem refuseAccess_buf : (refuseAccess s).buf = s.buf := rfl
@[simp] theorem refuseAccess_cmd : (refuseAccess s).cmd = s.cmd := rfl
@[simp] theorem refuseAccess_busy : (refuseAccess s).busy = s.busy := rfl
@[simp] theorem refuseAccess_done : (refuseAccess s).done = s.done := rfl
@[simp] theorem refuseAccess_err : (refuseAccess s).err = s.err := rfl
@[simp] theorem refuseAccess_t : (refuseAccess s).t = s.t := rfl
@[simp] theorem refuseAccess_ovr : (refuseAccess s).ovr = true := rfl
@[simp] theorem refuseAccess_errcode : (refuseAccess s).errcode = s.errcode := rfl
@[simp] theorem refuseAccess_errinfo : (refuseAccess s).errinfo = s.errinfo := rfl
@[simp] theorem refuseAccess_rlen : (refuseAccess s).rlen = s.rlen := rfl
@[simp] theorem refuseAccess_ien : (refuseAccess s).ien = s.ien := rfl
@[simp] theorem refuseAccess_utbl : (refuseAccess s).utbl = s.utbl := rfl
@[simp] theorem refuseAccess_sched : (refuseAccess s).sched = s.sched := rfl
@[simp] theorem refuseAccess_resp : (refuseAccess s).resp = some .err := rfl

/-! ### `hideCache` -/

@[simp] theorem hideCache_f : (hideCache s).f = s.f := rfl
@[simp] theorem hideCache_k : (hideCache s).k = s.k := rfl
@[simp] theorem hideCache_q : (hideCache s).q = s.q := rfl
@[simp] theorem hideCache_buf : (hideCache s).buf = s.buf := rfl
@[simp] theorem hideCache_cmd : (hideCache s).cmd = s.cmd := rfl
@[simp] theorem hideCache_busy : (hideCache s).busy = s.busy := rfl
@[simp] theorem hideCache_done : (hideCache s).done = s.done := rfl
@[simp] theorem hideCache_err : (hideCache s).err = s.err := rfl
@[simp] theorem hideCache_t : (hideCache s).t = s.t := rfl
@[simp] theorem hideCache_ovr : (hideCache s).ovr = s.ovr := rfl
@[simp] theorem hideCache_errcode : (hideCache s).errcode = s.errcode := rfl
@[simp] theorem hideCache_errinfo : (hideCache s).errinfo = s.errinfo := rfl
@[simp] theorem hideCache_rlen : (hideCache s).rlen = s.rlen := rfl
@[simp] theorem hideCache_ien : (hideCache s).ien = s.ien := rfl
@[simp] theorem hideCache_utbl : (hideCache s).utbl = none := rfl
@[simp] theorem hideCache_sched : (hideCache s).sched = s.sched := rfl
@[simp] theorem hideCache_resp : (hideCache s).resp = s.resp := rfl

/-! ### `resetBlock` -/

@[simp] theorem resetBlock_f : (resetBlock s).f = State.reset.f := rfl
@[simp] theorem resetBlock_k : (resetBlock s).k = State.reset.k := rfl
@[simp] theorem resetBlock_q : (resetBlock s).q = State.reset.q := rfl
@[simp] theorem resetBlock_buf : (resetBlock s).buf = State.reset.buf := rfl
@[simp] theorem resetBlock_cmd : (resetBlock s).cmd = State.reset.cmd := rfl
@[simp] theorem resetBlock_busy : (resetBlock s).busy = State.reset.busy := rfl
@[simp] theorem resetBlock_done : (resetBlock s).done = State.reset.done := rfl
@[simp] theorem resetBlock_err : (resetBlock s).err = State.reset.err := rfl
@[simp] theorem resetBlock_t : (resetBlock s).t = State.reset.t := rfl
@[simp] theorem resetBlock_ovr : (resetBlock s).ovr = State.reset.ovr := rfl
@[simp] theorem resetBlock_errcode : (resetBlock s).errcode = State.reset.errcode := rfl
@[simp] theorem resetBlock_errinfo : (resetBlock s).errinfo = State.reset.errinfo := rfl
@[simp] theorem resetBlock_rlen : (resetBlock s).rlen = State.reset.rlen := rfl
@[simp] theorem resetBlock_ien : (resetBlock s).ien = State.reset.ien := rfl
@[simp] theorem resetBlock_utbl : (resetBlock s).utbl = State.reset.utbl := rfl
@[simp] theorem resetBlock_sched : (resetBlock s).sched = s.sched := rfl
@[simp] theorem resetBlock_resp : (resetBlock s).resp = s.resp := rfl

end Sys2Proof.Machine
end

