-- ==== Sys2Proof/Laws/Exec.lean ====
section
/-! SUPPORT. What each shared operation of a command can do, said once (10_state.md R45; 00_scope.md R13, R14). -/

namespace Sys2Proof.Machine

/-! ### Results -/

@[simp] theorem res_bind_ok {α β : Type} (a : α) (f : α → Res β) : Except.bind (.ok a : Res α) f = f a := rfl

@[simp] theorem res_bind_error {α β : Type} (c : FaultCode) (f : α → Res β) :
    Except.bind (.error c : Res α) f = .error c := rfl

/-- A chain of checks succeeds exactly when each does. -/
theorem res_bind_eq_ok {α β : Type} {x : Res α} {f : α → Res β} {r : β} :
    Except.bind x f = .ok r ↔ ∃ a, x = .ok a ∧ f a = .ok r := by
  cases x <;> simp

/-- A chain of checks reports the first that fails (60_exceptions.md R245). -/
theorem res_bind_eq_error {α β : Type} {x : Res α} {f : α → Res β} {c : FaultCode} :
    Except.bind x f = .error c ↔ x = .error c ∨ ∃ a, x = .ok a ∧ f a = .error c := by
  cases x <;> simp

/-! ### Completion -/

@[simp] theorem finish_ok (s' s : State) : finish (.ok s') s = .next (completeOk s') := rfl

@[simp] theorem finish_error (c : FaultCode) (s : State) : finish (.error c) s = .next (raiseFault c s) := rfl

/-- The engine step is a next state, the effect or the fault entry (10_state.md R45). -/
theorem finish_cases {r : Res State} {s t : State} (h : finish r s = .next t) :
    (∃ s', r = .ok s' ∧ t = completeOk s') ∨ (∃ c, r = .error c ∧ t = raiseFault c s) := by
  cases r with
  | ok s' => exact .inl ⟨s', rfl, by simpa using h.symm⟩
  | error c => exact .inr ⟨c, rfl, by simpa using h.symm⟩

/-- Every command ends in `finish` (10_state.md R45). -/
theorem exec_is_finish (i : Instr) (s : State) : ∃ r, exec i s = finish r s := by
  cases i with
  | nop => exact ⟨.ok s, rfl⟩
  | ldg d => exact ⟨.ok (setQ s d generator), rfl⟩
  | _ => exact ⟨_, rfl⟩

/-- `exec` is total: a command always has a next state (10_state.md R45, 30_encoding.md R97). -/
theorem exec_next (i : Instr) (s : State) : ∃ t, exec i s = .next t := by
  obtain ⟨r, hr⟩ := exec_is_finish i s
  exact ⟨_, hr⟩

/-- The engine's turn and every event have a next state. -/
theorem engineTurn_next (s : State) : ∃ t, engineTurn s = .next t := by
  unfold engineTurn completeCommand
  split
  · split
    · exact exec_next _ s
    · exact ⟨_, rfl⟩
  · exact ⟨_, rfl⟩

theorem runEvent_next (e : Event) (s : State) : ∃ t, runEvent e s = .next t := by
  cases e with
  | access x => exact ⟨_, rfl⟩
  | hardReset => exact ⟨_, rfl⟩
  | engine => exact engineTurn_next s

/-- The machine never stops. -/
theorem step_next (s : State) : ∃ t, step s = .next t := by
  unfold step
  split
  · exact engineTurn_next s
  · exact runEvent_next _ _

/-! ### Operands -/

@[simp] theorem need_some {α : Type} (v : α) : need (some v) = .ok v := rfl

@[simp] theorem need_none {α : Type} : need (none : Option α) = .error .uninitRegister := rfl

theorem need_eq_ok {α : Type} {o : Option α} {v : α} : need o = .ok v ↔ o = some v := by
  cases o <;> simp

theorem need_eq_error {α : Type} {o : Option α} {c : FaultCode} :
    need o = .error c ↔ o = none ∧ c = .uninitRegister := by
  cases o <;> simp [eq_comm]

theorem needF_ok {s : State} {a : FReg} {v : Fe} (h : regF s a = some v) : needF s a = .ok v := by rw [needF, h]; rfl

theorem needK_ok {s : State} {e : KReg} {v : Scalar} (h : regK s e = some v) : needK s e = .ok v := by rw [needK, h]; rfl

theorem needQ_ok {s : State} {a : QReg} {v : Point} (h : regQ s a = some v) : needQ s a = .ok v := by rw [needQ, h]; rfl

/-- A store inside `BUF` changes `BUF` alone (20_memory.md R66). -/
theorem storeBytes_ok {s : State} {off : Nat} {bs : List Byte} (h : off + bs.length ≤ Config.bufSize) :
    storeBytes s off bs = .ok { s with buf := setBytes s.buf off bs } := by
  rw [storeBytes, memWrite_ok h]; rfl

/-- A store that would leave `BUF` is `BufferRange` (60_exceptions.md R239). -/
theorem storeBytes_error {s : State} {off : Nat} {bs : List Byte} (h : Config.bufSize < off + bs.length) :
    storeBytes s off bs = .error .bufferRange := by
  rw [storeBytes, memWrite_error h]; rfl

/-- Whatever a store answers, it changes `BUF` alone and stays inside it. -/
theorem storeBytes_cases {s s' : State} {off : Nat} {bs : List Byte} (h : storeBytes s off bs = .ok s') :
    off + bs.length ≤ Config.bufSize ∧ s' = { s with buf := setBytes s.buf off bs } := by
  by_cases hr : off + bs.length ≤ Config.bufSize
  · rw [storeBytes_ok hr] at h
    exact ⟨hr, by simpa using h.symm⟩
  · rw [storeBytes_error (by omega)] at h
    cases h

theorem feOfNat_ok {v : Nat} (h : v < Config.P) : feOfNat v = .ok ⟨v, h⟩ := by rw [feOfNat, dif_pos h]

theorem feOfNat_error {v : Nat} (h : Config.P ≤ v) : feOfNat v = .error .operandRange := by
  rw [feOfNat, dif_neg (by omega)]

@[simp] theorem pointBytes_length (p : Point) : (pointBytes p).length = 65 := by
  cases p <;> simp [pointBytes]

/-! ### Host accesses -/

/-- A refused read is a read of `none`, a refused write a write of `none`; otherwise the response is `Ok` (20_memory.md R62). -/
theorem hostAccess_cases (x : Access) (s : State) :
    hostAccess x s = refuseAccess s ∨
    (x.width = 32 ∧ x.kind = .read ∧ ∃ d, busRead x.addr s = some d ∧ hostAccess x s = { s with resp := some (.okData d) }) ∨
    (x.width = 32 ∧ ∃ d s', x.kind = .write d ∧ busWrite x.addr d s = some s' ∧
      hostAccess x s = { s' with resp := some .okWrite }) := by
  obtain ⟨w, a, kd⟩ := x
  unfold hostAccess
  by_cases hw : w = 32
  · subst hw
    cases kd with
    | read =>
      cases hr : busRead a s with
      | none => exact .inl (by simp)
      | some d => exact .inr (.inl ⟨rfl, rfl, d, rfl, by simp⟩)
    | write d =>
      cases hr : busWrite a d s with
      | none => exact .inl (by simp [hr])
      | some s' => exact .inr (.inr ⟨rfl, d, s', rfl, hr, by simp [hr]⟩)
  · exact .inl (by simp [hw])

/-- What an accepted write can be: an issue, a `CTRL` action, an `IEN` store or a store in the idle `BUF` window. -/
theorem busWrite_cases {a : BusAddr} {d : Word} {s s' : State} (h : busWrite a d s = some s') :
    (a.toNat = 0x004 ∧ s.busy = false ∧ s.err = false ∧ s' = issueWord d s) ∨
    (a.toNat = 0x018 ∧ s' = ctrlWrite d s) ∨
    (a.toNat = 0x01C ∧ s' = { s with ien := d.setWidth 2 }) ∨
    (a.toNat % 4 = 0 ∧ 0x100 ≤ a.toNat ∧ a.toNat < 0x200 ∧ s.busy = false ∧
      s' = { s with buf := setBufWord s.buf (bufOffset a) d }) := by
  unfold busWrite at h
  by_cases ha : a.toNat % 4 = 0
  · rw [if_pos (by simp [aligned, ha])] at h
    unfold writeWord at h
    split at h
    · rename_i he
      by_cases hb : s.busy || s.err
      · simp [hb] at h
      · simp only [Bool.not_eq_true, Bool.or_eq_false_iff] at hb
        simp only [hb.1, hb.2, Bool.or_self, Bool.false_eq_true, if_false, Option.some.injEq] at h
        exact .inl ⟨he, hb.1, hb.2, h.symm⟩
    · rename_i he
      exact .inr (.inl ⟨he, by simpa using h.symm⟩)
    · rename_i he
      exact .inr (.inr (.inl ⟨he, by simpa using h.symm⟩))
    · by_cases hw : inBufWindow a && !s.busy
      · rw [if_pos hw, Option.some.injEq] at h
        simp only [inBufWindow, Bool.and_eq_true, decide_eq_true_eq, Bool.not_eq_true'] at hw
        exact .inr (.inr (.inr ⟨ha, hw.1.1, hw.1.2, hw.2, h.symm⟩))
      · rw [if_neg hw] at h
        cases h
  · rw [if_neg (by simp [aligned, ha])] at h
    cases h

end Sys2Proof.Machine
end

