-- ==== Sys2Proof/Laws/Prime.lean ====
section
/-! SUPPORT. The curve prime is prime (00_scope.md R6, which the spec marks general knowledge): a Lucas certificate, each modular
power evaluated by repeated squaring. -/

namespace Sys2Proof.Laws

/-- `b ^ e mod m` by squaring, for exponents below `2 ^ n`. -/
def powMod (m : Nat) : Nat → Nat → Nat → Nat
  | 0, _, _ => 1 % m
  | n + 1, b, e =>
    if e % 2 = 1 then b * powMod m n (b * b % m) (e / 2) % m else powMod m n (b * b % m) (e / 2)

theorem powMod_eq (m n b e : Nat) (h : e < 2 ^ n) : powMod m n b e = b ^ e % m := by
  induction n generalizing b e with
  | zero =>
    obtain rfl : e = 0 := by simpa using h
    rfl
  | succ n ih =>
    have hlt : e / 2 < 2 ^ n := by rw [pow_succ] at h; omega
    have sq : (b * b % m) ^ (e / 2) % m = b ^ (2 * (e / 2)) % m := by
      rw [← Nat.pow_mod, ← pow_two, ← pow_mul]
    rw [powMod, ih _ _ hlt, sq]
    split
    · rename_i ho
      rw [Nat.mul_mod_mod, ← pow_succ']
      congr 2; omega
    · congr 2; omega

/-- Lucas' test with the prime factors of `p - 1` given as a list and every power evaluated. -/
theorem prime_of_certificate (p a : Nat) (factors : List Nat) (hp : 1 < p) (n : Nat) (hn : p < 2 ^ n)
    (hprod : factors.prod = p - 1) (hprime : ∀ q ∈ factors, q.Prime) (h1 : powMod p n a (p - 1) = 1)
    (h2 : ∀ q ∈ factors, powMod p n a ((p - 1) / q) ≠ 1) : p.Prime := by
  have cast_one : ∀ e, ((a : ZMod p) ^ e = 1 ↔ a ^ e % p = 1) := fun e => by
    have : ((a ^ e : Nat) : ZMod p) = ((1 : Nat) : ZMod p) ↔ a ^ e % p = 1 % p :=
      ZMod.natCast_eq_natCast_iff' _ _ _
    rwa [Nat.cast_pow, Nat.cast_one, Nat.mod_eq_of_lt hp] at this
  refine lucas_primality p (a : ZMod p) ?_ fun q hq hd => ?_
  · rw [cast_one, ← powMod_eq p n a _ (by omega)]
    exact h1
  · rw [← hprod, hq.prime.dvd_prod_iff] at hd
    obtain ⟨r, hr, hqr⟩ := hd
    obtain rfl := (Nat.prime_dvd_prime_iff_eq hq (hprime r hr)).1 hqr
    rw [Ne, cast_one, ← powMod_eq p n a _ (lt_of_le_of_lt (Nat.div_le_self _ _) (by omega))]
    exact h2 q hr

theorem prime_8_digits : Nat.Prime 13331831 := by
  refine prime_of_certificate 13331831 13
    [2, 5, 971, 1373]
    (by decide +kernel) 24 (by decide +kernel) (by decide +kernel) ?_ (by decide +kernel) (by decide +kernel)
  simp only [List.forall_mem_cons]
  exact ⟨by norm_num, by norm_num, by norm_num, by norm_num, by simp⟩

theorem prime_18_digits : Nat.Prime 173378833005251801 := by
  refine prime_of_certificate 173378833005251801 6
    [2, 2, 2, 5, 5, 2621, 24809, 13331831]
    (by decide +kernel) 58 (by decide +kernel) (by decide +kernel) ?_ (by decide +kernel) (by decide +kernel)
  simp only [List.forall_mem_cons]
  exact ⟨by norm_num, by norm_num, by norm_num, by norm_num, by norm_num, by norm_num, by norm_num, prime_8_digits, by simp⟩

theorem prime_23_digits : Nat.Prime 22149492674086928081353 := by
  refine prime_of_certificate 22149492674086928081353 5
    [2, 2, 2, 3, 5323, 173378833005251801]
    (by decide +kernel) 75 (by decide +kernel) (by decide +kernel) ?_ (by decide +kernel) (by decide +kernel)
  simp only [List.forall_mem_cons]
  exact ⟨by norm_num, by norm_num, by norm_num, by norm_num, by norm_num, prime_18_digits, by simp⟩

theorem prime_24_digits : Nat.Prime 132896956044521568488119 := by
  refine prime_of_certificate 132896956044521568488119 6
    [2, 3, 22149492674086928081353]
    (by decide +kernel) 77 (by decide +kernel) (by decide +kernel) ?_ (by decide +kernel) (by decide +kernel)
  simp only [List.forall_mem_cons]
  exact ⟨by norm_num, by norm_num, prime_23_digits, by simp⟩

theorem prime_39_digits : Nat.Prime 255515944373312847190720520512484175977 := by
  refine prime_of_certificate 255515944373312847190720520512484175977 3
    [2, 2, 2, 7, 7, 11, 1627, 2657, 4423, 41201, 96557, 7240687, 107590001]
    (by decide +kernel) 128 (by decide +kernel) (by decide +kernel) ?_ (by decide +kernel) (by decide +kernel)
  simp only [List.forall_mem_cons]
  exact ⟨by norm_num, by norm_num, by norm_num, by norm_num, by norm_num, by norm_num, by norm_num, by norm_num, by norm_num, by norm_num, by norm_num, by norm_num, by norm_num, by simp⟩

theorem prime_72_digits : Nat.Prime 205115282021455665897114700593932402728804164701536103180137503955397371 := by
  refine prime_of_certificate 205115282021455665897114700593932402728804164701536103180137503955397371 10
    [2, 3, 5, 29, 29, 31, 7723, 132896956044521568488119, 255515944373312847190720520512484175977]
    (by decide +kernel) 237 (by decide +kernel) (by decide +kernel) ?_ (by decide +kernel) (by decide +kernel)
  simp only [List.forall_mem_cons]
  exact ⟨by norm_num, by norm_num, by norm_num, by norm_num, by norm_num, by norm_num, by norm_num, prime_24_digits, prime_39_digits, by simp⟩

theorem prime_P : Nat.Prime Config.P := by
  refine prime_of_certificate Config.P 3
    [2, 3, 7, 13441, 205115282021455665897114700593932402728804164701536103180137503955397371]
    (by decide +kernel) 256 (by decide +kernel) (by decide +kernel) ?_ (by decide +kernel) (by decide +kernel)
  simp only [List.forall_mem_cons]
  exact ⟨by norm_num, by norm_num, by norm_num, by norm_num, prime_72_digits, by simp⟩

end Sys2Proof.Laws
end

