-- ==== Sys2Proof/Laws/Field.lean ====
section
/-! SUPPORT. The functional layer of the field and of point doubling, read in the field `ZMod P` (40_field.md R121 to R129,
41_point.md R154). -/

namespace Sys2Proof.Machine

theorem fact_prime_P : Fact (Nat.Prime Config.P) := ⟨Laws.prime_P⟩

/-- A field element as an element of the prime field. -/
def toZ (a : Fe) : ZMod Config.P := ((a.val : Nat) : ZMod Config.P)

theorem toZ_injective {a b : Fe} (h : toZ a = toZ b) : a = b := by
  have h' := (ZMod.natCast_eq_natCast_iff' a.val b.val Config.P).1 h
  rw [Nat.mod_eq_of_lt a.isLt, Nat.mod_eq_of_lt b.isLt] at h'
  exact Fin.ext h'

@[simp] theorem toZ_inj {a b : Fe} : toZ a = toZ b ↔ a = b := ⟨toZ_injective, fun h => h ▸ rfl⟩

/-! ### The generic field element (40_field.md R120) -/

@[simp] theorem genericOf_value (a : Fe) : (genericOf a).value = a.val := rfl

@[simp] theorem genericOf_modulus (a : Fe) : (genericOf a).modulus = Config.P := rfl

/-- Everything `opGeneric` answers: `DomainMismatch` across moduli, else the reduced result (40_field.md R120). -/
theorem opGeneric_cases (op : Int → Int → Int) (x y : FieldElement) :
    (x.modulus ≠ y.modulus ∧ opGeneric op x y = .error .domainMismatch) ∨
    (x.modulus = y.modulus ∧ ∃ r, opGeneric op x y = .ok r ∧ r.modulus = x.modulus ∧
      (r.value : Int) = op x.value y.value % (x.modulus : Int)) := by
  unfold opGeneric
  by_cases h : x.modulus = y.modulus
  · refine .inr ⟨h, _, if_neg (not_not.2 h), rfl, Int.toNat_of_nonneg (Int.emod_nonneg _ ?_)⟩
    have := x.value_lt
    omega
  · exact .inl ⟨h, if_pos h⟩

/-! ### Normalisation: values and images -/

theorem normFe_val (z : Int) : ((normFe z).val : Int) = z % (Config.P : Int) :=
  Int.toNat_of_nonneg (Int.emod_nonneg z (Int.natCast_ne_zero.2 (Nat.ne_of_gt prime_pos)))

@[simp] theorem toZ_normFe (z : Int) : toZ (normFe z) = (z : ZMod Config.P) := by
  have h : ((normFe z).val : ZMod Config.P) = (((normFe z).val : Int) : ZMod Config.P) := by push_cast; rfl
  rw [toZ, h, normFe_val, ZMod.intCast_mod]

theorem feAdd_val (a b : Fe) : (feAdd a b).val = (a.val + b.val) % Config.P := by
  have h := normFe_val ((a.val : Int) + (b.val : Int))
  rw [← Nat.cast_add, ← Int.natCast_mod] at h
  exact_mod_cast h

theorem feMul_val (a b : Fe) : (feMul a b).val = a.val * b.val % Config.P := by
  have h := normFe_val ((a.val : Int) * (b.val : Int))
  rw [← Nat.cast_mul, ← Int.natCast_mod] at h
  exact_mod_cast h

theorem feSub_val (a b : Fe) : (feSub a b).val = (a.val + (Config.P - b.val)) % Config.P := by
  have h := normFe_val ((a.val : Int) - (b.val : Int))
  have hb := b.isLt
  have e : (a.val : Int) - (b.val : Int) = ((a.val + (Config.P - b.val) : Nat) : Int) - (Config.P : Int) := by omega
  rw [e, Int.sub_emod_right, ← Int.natCast_mod] at h
  unfold feSub
  rw [e]
  exact_mod_cast h

@[simp] theorem toZ_feAdd (a b : Fe) : toZ (feAdd a b) = toZ a + toZ b := by
  rw [feAdd, toZ_normFe]; push_cast; rfl

@[simp] theorem toZ_feSub (a b : Fe) : toZ (feSub a b) = toZ a - toZ b := by
  rw [feSub, toZ_normFe]; push_cast; rfl

@[simp] theorem toZ_feMul (a b : Fe) : toZ (feMul a b) = toZ a * toZ b := by
  rw [feMul, toZ_normFe]; push_cast; rfl

@[simp] theorem toZ_feNeg (a : Fe) : toZ (feNeg a) = - toZ a := by
  rw [feNeg, toZ_feSub, toZ_normFe]; simp

theorem toZ_eq_zero {a : Fe} : toZ a = 0 ↔ a.val = 0 := by
  rw [toZ, ZMod.natCast_eq_zero_iff]
  exact ⟨fun h => Nat.eq_zero_of_dvd_of_lt h a.isLt, fun h => h ▸ dvd_zero _⟩

/-! ### Powers and inverses -/

/-- Square and multiply computes the power (40_field.md R125). -/
theorem powBits_mod (n b e : Nat) (h : e < 2 ^ n) : powBits n b e % Config.P = b ^ e % Config.P := by
  induction n generalizing b e with
  | zero =>
    obtain rfl : e = 0 := by simpa using h
    rfl
  | succ n ih =>
    have hlt : e / 2 < 2 ^ n := by rw [pow_succ] at h; omega
    have sq : (b * b % Config.P) ^ (e / 2) % Config.P = b ^ (2 * (e / 2)) % Config.P := by
      rw [← Nat.pow_mod, ← pow_two, ← pow_mul]
    have ih' := ih (b * b % Config.P) (e / 2) hlt
    rw [sq] at ih'
    rw [powBits]
    split
    · rw [Nat.mod_mod, Nat.mul_mod, ih', ← Nat.mul_mod, ← pow_succ']
      congr 2; omega
    · rw [ih']
      congr 2; omega

/-- `fe_pow(a, e) = (a ^ e) mod P` (40_field.md R125). -/
theorem fePow_val (a : Fe) (e : Nat) : (fePow a e).val = a.val ^ e % Config.P :=
  powBits_mod _ _ _ Nat.lt_log2_self

@[simp] theorem toZ_fePow (a : Fe) (e : Nat) : toZ (fePow a e) = toZ a ^ e := by
  rw [toZ, fePow_val, ZMod.natCast_mod, Nat.cast_pow, toZ]

/-- Every field element but 0 has its inverse (40_field.md R126). -/
theorem feInv_spec {a : Fe} (h : a.val ≠ 0) : ∃ i, feInv a = .ok i ∧ toZ a * toZ i = 1 := by
  have := fact_prime_P
  refine ⟨fePow a (Config.P - 2), by rw [feInv, if_neg h], ?_⟩
  have h0 : toZ a ≠ 0 := fun hz => h (toZ_eq_zero.1 hz)
  have hp : Config.P - 2 + 1 = Config.P - 1 := by decide
  rw [toZ_fePow, ← pow_succ', hp]
  exact ZMod.pow_card_sub_one_eq_one h0

/-- Division answers the quotient for every divisor but 0 (40_field.md R127). -/
theorem feDiv_spec (a : Fe) {b : Fe} (h : b.val ≠ 0) : ∃ r, feDiv a b = .ok r ∧ toZ r * toZ b = toZ a := by
  obtain ⟨i, hi, e⟩ := feInv_spec h
  refine ⟨feMul a i, by rw [feDiv, hi]; rfl, ?_⟩
  rw [toZ_feMul, mul_assoc, mul_comm (toZ i), e, mul_one]

theorem feInv_zero {a : Fe} (h : a.val = 0) : feInv a = .error .invalidPoint := by rw [feInv, if_pos h]

theorem feDiv_zero (a : Fe) {b : Fe} (h : b.val = 0) : feDiv a b = .error .invalidPoint := by
  rw [feDiv, feInv_zero h]; rfl

/-! ### Doubling -/

theorem two_ne_zero_ZMod : (2 : ZMod Config.P) ≠ 0 := by
  intro h
  have : ((2 : Nat) : ZMod Config.P) = 0 := by exact_mod_cast h
  rw [ZMod.natCast_eq_zero_iff] at this
  exact absurd (Nat.le_of_dvd (by decide) this) (by decide)

/-- Twice a field element that is not its own negative is not 0 (41_point.md R152). -/
theorem double_ne_zero {y : Fe} (h : y ≠ feNeg y) : (feMul (normFe 2) y).val ≠ 0 := by
  have := fact_prime_P
  intro hz
  have h0 := toZ_eq_zero.2 hz
  rw [toZ_feMul, toZ_normFe] at h0
  rcases mul_eq_zero.1 h0 with h2 | hy
  · exact two_ne_zero_ZMod (by exact_mod_cast h2)
  · exact h (toZ_injective (by rw [toZ_feNeg, hy, neg_zero]))

/-- `pt_add(p, p)` never faults, and `pt_double(p)` is its value (41_point.md R152, R154; log 13). -/
theorem ptAdd_self (p : Point) : ptAdd p p = .ok (ptDouble p) := by
  have : ∃ r, ptAdd p p = .ok r := by
    cases p with
    | infinity => exact ⟨_, rfl⟩
    | finite x y =>
      by_cases hy : y = feNeg y
      · exact ⟨.infinity, by rw [ptAdd, if_pos ⟨rfl, hy⟩]⟩
      · obtain ⟨r, hr, -⟩ := feDiv_spec (feMul (normFe 3) (feMul x x)) (double_ne_zero hy)
        exact ⟨chordEnd r x y x, by rw [ptAdd, if_neg (fun h => hy h.2), if_pos ⟨rfl, rfl⟩, hr]; rfl⟩
  obtain ⟨r, hr⟩ := this
  rw [ptDouble, hr]

end Sys2Proof.Machine
end

