-- ==== Sys2Proof/Laws/Cases.lean ====
section
/-! SUPPORT. For each shared operation of the commands, everything it can answer: its value, or the one fault it can raise
(60_exceptions.md R244). And reading a register after a write (10_state.md R23, R26). -/

namespace Sys2Proof.Machine

/-! ### Registers -/

/-- Reads see the register file alone. -/
theorem regF_congr {s t : State} (h : t.f = s.f) (a : FReg) : regF t a = regF s a := by rw [regF, regF, h]

theorem regK_congr {s t : State} (h : t.k = s.k) (e : KReg) : regK t e = regK s e := by rw [regK, regK, h]

theorem regQ_congr {s t : State} (h : t.q = s.q) (a : QReg) : regQ t a = regQ s a := by rw [regQ, regQ, h]

/-- A register reads back what was written to it, every other register what it held. -/
@[simp] theorem regF_setF (s : State) (d r : FReg) (v : Fe) :
    regF (setF s d v) r = if d = r then some v else regF s r := by
  simp [regF, setF, Vector.getElem_set, Fin.ext_iff]

@[simp] theorem regK_setK (s : State) (d r : KReg) (v : Scalar) :
    regK (setK s d v) r = if d = r then some v else regK s r := by
  simp [regK, setK, Vector.getElem_set, Fin.ext_iff]

@[simp] theorem regQ_setQ (s : State) (d r : QReg) (v : Point) :
    regQ (setQ s d v) r = if d = r then some v else regQ s r := by
  simp [regQ, setQ, Vector.getElem_set, Fin.ext_iff]

/-! ### What each operation can answer -/

theorem need_cases {α : Type} (o : Option α) :
    (∃ v, o = some v ∧ need o = .ok v) ∨ (o = none ∧ need o = .error .uninitRegister) := by
  cases o <;> simp

theorem feInv_cases (a : Fe) : (∃ v, feInv a = .ok v) ∨ feInv a = .error .invalidPoint := by
  unfold feInv
  split <;> simp

theorem feDiv_cases (a b : Fe) : (∃ v, feDiv a b = .ok v) ∨ feDiv a b = .error .invalidPoint := by
  unfold feDiv
  rcases feInv_cases b with ⟨v, h⟩ | h <;> simp [h]

theorem ptAdd_cases (p q : Point) : (∃ r, ptAdd p q = .ok r) ∨ ptAdd p q = .error .invalidPoint := by
  have chord : ∀ (n d : Fe) (f : Fe → Point),
      (∃ r, Except.bind (feDiv n d) (fun l => .ok (f l)) = (.ok r : Res Point)) ∨
      Except.bind (feDiv n d) (fun l => .ok (f l)) = (.error .invalidPoint : Res Point) := by
    intro n d f
    rcases feDiv_cases n d with ⟨v, h⟩ | h <;> simp [h]
  unfold ptAdd
  split
  · exact .inl ⟨_, rfl⟩
  · exact .inl ⟨_, rfl⟩
  · split
    · exact .inl ⟨_, rfl⟩
    · split
      · exact chord _ _ _
      · exact chord _ _ _

theorem scanBits_cases (k : Scalar) (i : Nat) (acc : Point) (l : List Point) :
    (∃ r, scanBits k i acc l = .ok r) ∨ scanBits k i acc l = .error .invalidPoint := by
  induction l generalizing i acc with
  | nil => exact .inl ⟨acc, rfl⟩
  | cons e l ih =>
    unfold scanBits
    split
    · rcases ptAdd_cases acc e with ⟨r, h⟩ | h <;> simp [h, ih]
    · exact ih _ _

theorem scalarMulWith_cases (k : Scalar) (l : List Point) :
    (∃ r, scalarMulWith k l = .ok r) ∨ scalarMulWith k l = .error .invalidScalar ∨
      scalarMulWith k l = .error .invalidPoint := by
  unfold scalarMulWith
  split
  · simp
  · rcases scanBits_cases k 0 .infinity l with h | h
    · exact .inl h
    · exact .inr (.inr h)

theorem memRead_cases (m : Memory) (off n : Nat) :
    (off + n ≤ Config.bufSize ∧ memRead m off n = .ok (bytesAt m off n)) ∨
    (Config.bufSize < off + n ∧ memRead m off n = .error .bufferRange) := by
  by_cases h : off + n ≤ Config.bufSize
  · exact .inl ⟨h, memRead_ok h⟩
  · exact .inr ⟨by omega, memRead_error (by omega)⟩

theorem feOfNat_cases (v : Nat) :
    (∃ h : v < Config.P, feOfNat v = .ok ⟨v, h⟩) ∨ (Config.P ≤ v ∧ feOfNat v = .error .operandRange) := by
  by_cases h : v < Config.P
  · exact .inl ⟨h, feOfNat_ok h⟩
  · exact .inr ⟨by omega, feOfNat_error (by omega)⟩

theorem pointOfBytes_cases (bs : List Byte) :
    (∃ p, pointOfBytes bs = .ok p) ∨ pointOfBytes bs = .error .operandRange := by
  unfold pointOfBytes
  split
  · exact .inr rfl
  · split
    · exact .inl ⟨_, rfl⟩
    · split
      · rename_i rest _ _
        rcases feOfNat_cases (be (rest.take 32)) with ⟨_, h⟩ | ⟨_, h⟩ <;>
          rcases feOfNat_cases (be (rest.drop 32)) with ⟨_, h'⟩ | ⟨_, h'⟩ <;> simp [h, h']
      · exact .inr rfl

end Sys2Proof.Machine
end

