-- ==== Sys2Proof/Laws/Decode.lean ====
section
/-! SUPPORT. The fields of a word and of a packed word (30_encoding.md R92). -/

namespace Sys2Proof

theorem opField_eq (w : Word) : opField w = w.toNat / 2 ^ 24 := by
  have := w.isLt
  simp only [opField, BitVec.extractLsb'_toNat, Nat.shiftRight_eq_div_pow]
  omega

theorem aField_eq (w : Word) : aField w = w.toNat / 2 ^ 16 % 256 := by
  simp only [aField, BitVec.extractLsb'_toNat, Nat.shiftRight_eq_div_pow]

theorem bField_eq (w : Word) : bField w = w.toNat / 2 ^ 8 % 256 := by
  simp only [bField, BitVec.extractLsb'_toNat, Nat.shiftRight_eq_div_pow]

theorem cField_eq (w : Word) : cField w = w.toNat % 256 := by
  simp only [cField, BitVec.extractLsb'_toNat, Nat.shiftRight_eq_div_pow]
  omega

theorem opcodeOf_lt (i : Instr) : opcodeOf i < 256 := by cases i <;> simp [opcodeOf]

/-- A packed word's value, its fields side by side. -/
theorem packWord_toNat (op a b c : Nat) :
    (packWord op a b c).toNat = op % 256 * 2 ^ 24 + a % 256 * 2 ^ 16 + b % 256 * 2 ^ 8 + c % 256 := by
  have e : ∀ {m : Nat} (x : BitVec m) (v : Nat), (x ++ BitVec.ofNat 8 v).toNat = x.toNat * 256 + v % 256 := by
    intro m x v
    rw [BitVec.toNat_append, BitVec.toNat_ofNat, Nat.shiftLeft_eq, Nat.mul_comm, Nat.mul_comm]
    have hv : v % 2 ^ 8 < 2 ^ 8 := Nat.mod_lt _ (by decide)
    rw [Nat.mul_comm x.toNat, ← Nat.two_pow_add_eq_or_of_lt hv]
    omega
  unfold packWord
  rw [e, e, e, BitVec.toNat_ofNat]
  omega

@[simp] theorem opField_packWord {op : Nat} (h : op < 256) (a b c : Nat) : opField (packWord op a b c) = op := by
  rw [opField_eq, packWord_toNat]; omega

@[simp] theorem aField_packWord (op : Nat) {a : Nat} (h : a < 256) (b c : Nat) : aField (packWord op a b c) = a := by
  rw [aField_eq, packWord_toNat]; omega

@[simp] theorem bField_packWord (op a : Nat) {b : Nat} (h : b < 256) (c : Nat) : bField (packWord op a b c) = b := by
  rw [bField_eq, packWord_toNat]; omega

@[simp] theorem cField_packWord (op a b : Nat) {c : Nat} (h : c < 256) : cField (packWord op a b c) = c := by
  rw [cField_eq, packWord_toNat]; omega

/-- A word is its four fields. -/
theorem packWord_fields (w : Word) : packWord (opField w) (aField w) (bField w) (cField w) = w := by
  apply BitVec.eq_of_toNat_eq
  rw [packWord_toNat, opField_eq, aField_eq, bField_eq, cField_eq]
  have := w.isLt
  omega

end Sys2Proof
end

