-- ==== Sys2Proof/Laws/Inversion.lean ====
section
/-! SUPPORT. What a command can do, said once: the effect of a completed command is one of six shapes, and a command that does not
complete faults (10_state.md R45). Every claim about all commands is a case analysis of `exec_cases`. -/

namespace Sys2Proof.Machine

/-- The state a command computes before its completion, by the kind of its destination. -/
inductive Effect (i : Instr) (s : State) : State → Prop where
  /-- NOP: nothing -/
  | nothing : i = .nop → Effect i s s
  /-- an `F` register -/
  | field (d : FReg) (v : Fe) : destF i = some d → Effect i s (setF s d v)
  /-- a `K` register -/
  | integer (d : KReg) (v : Scalar) : destK i = some d → Effect i s (setK s d v)
  /-- a `Q` register -/
  | point (d : QReg) (v : Point) : destQ i = some d → Effect i s (setQ s d v)
  /-- SMUL: a `Q` register, and the cache -/
  | multiple (d b : QReg) (k : KReg) (base v : Point) : i = .smul d b k → regQ s b = some base →
      Effect i s (setQ { s with utbl := smulCache s.utbl base } d v)
  /-- the flag `T` -/
  | flag (v : Bool) : writesT i = true → Effect i s (setT s v)
  /-- bytes of `BUF` -/
  | bytes (off : Nat) (bs : List Byte) : stores i = true → storedRange i s = (off, bs.length) →
      off + bs.length ≤ Config.bufSize → Effect i s { s with buf := setBytes s.buf off bs }
  /-- the characters of a Base58 string, and `RLEN` -/
  | string (off : Nat) (payload : List Byte) : stores i = true → writesRlen i = true →
      storedRange i s = (off, (b58Encode payload).length) →
      off + (b58Encode payload).length ≤ Config.bufSize → payload.length ≤ Config.lMax →
      Effect i s { s with buf := setBytes s.buf off (b58Encode payload),
                          rlen := BitVec.ofNat 8 (b58Encode payload).length }

/-- Completed with its effect, or faulted. -/
def Ends (i : Instr) (s t : State) : Prop :=
  (∃ s', Effect i s s' ∧ t = completeOk s') ∨ ∃ c, t = raiseFault c s

theorem ends_of_finish {i : Instr} {s t : State} {r : Res State} (h : finish r s = .next t)
    (hr : ∀ s', r = .ok s' → Effect i s s') : Ends i s t := by
  rcases finish_cases h with ⟨s', hs, rfl⟩ | ⟨c, -, rfl⟩
  · exact .inl ⟨s', hr s' hs, rfl⟩
  · exact .inr ⟨c, rfl⟩

theorem checksum_length (payload : List Byte) : (checksum payload).length = 4 := by
  simp [checksum]

theorem base58_effect {i : Instr} {limit dst src len : Nat} {conv : List Byte → List Byte} {s t : State}
    (h : base58Command limit conv dst src len s = .next t) (hs : stores i = true) (hr : writesRlen i = true)
    (hrange : storedRange i s = (dst, (conv (bytesAt s.buf src len)).length))
    (hconv : ∀ p : List Byte, p.length ≤ limit → ∃ q : List Byte, conv p = b58Encode q ∧ q.length ≤ Config.lMax) :
    Ends i s t := by
  refine ends_of_finish h fun s' hs' => ?_
  split at hs'
  · cases hs'
  · rename_i hlen
    obtain ⟨payload, hp, hs'⟩ := res_bind_eq_ok.1 hs'
    rcases memRead_cases s.buf src len with ⟨-, hm⟩ | ⟨-, hm⟩
    · rw [hm] at hp
      cases hp
      obtain ⟨u, hu, hs'⟩ := res_bind_eq_ok.1 hs'
      obtain ⟨hin, rfl⟩ := storeBytes_cases hu
      cases hs'
      obtain ⟨q, hq, hql⟩ := hconv (bytesAt s.buf src len) (by simpa using hlen)
      rw [hq] at hin hrange ⊢
      exact .string dst q hs hr hrange hin hql
    · rw [hm] at hp
      cases hp

theorem store_effect {i : Instr} {α : Type} {s t : State} {x : Res α} {off : Nat} {f : α → List Byte}
    (h : finish (x.bind fun v => storeBytes s off (f v)) s = .next t) (hs : stores i = true)
    (hrange : ∀ v, storedRange i s = (off, (f v).length)) : Ends i s t := by
  refine ends_of_finish h fun s' hs' => ?_
  obtain ⟨v, -, hs'⟩ := res_bind_eq_ok.1 hs'
  obtain ⟨hin, rfl⟩ := storeBytes_cases hs'
  exact .bytes off (f v) hs (hrange v) hin

/-- What a command can do. -/
theorem exec_cases {i : Instr} {s t : State} (h : exec i s = .next t) : Ends i s t := by
  have fieldBinary_effect : ∀ {op d a b}, fieldBinary op d a b s = .next t → destF i = some d → Ends i s t := by
    intro op d a b h hd
    refine ends_of_finish h fun s' hs' => ?_
    obtain ⟨x, -, hs'⟩ := res_bind_eq_ok.1 hs'
    obtain ⟨y, -, hs'⟩ := res_bind_eq_ok.1 hs'
    obtain ⟨r, -, hs'⟩ := res_bind_eq_ok.1 hs'
    cases hs'
    exact .field d r hd
  cases i with
  | nop => exact ends_of_finish (r := .ok s) h fun s' hs' => by cases hs'; exact .nothing rfl
  | fadd d a b => exact fieldBinary_effect h rfl
  | fsub d a b => exact fieldBinary_effect h rfl
  | fmul d a b => exact fieldBinary_effect h rfl
  | fdiv d a b => exact fieldBinary_effect h rfl
  | fpow d a e =>
    refine ends_of_finish h fun s' hs' => ?_
    obtain ⟨x, -, hs'⟩ := res_bind_eq_ok.1 hs'
    obtain ⟨n, -, hs'⟩ := res_bind_eq_ok.1 hs'
    cases hs'
    exact .field d _ rfl
  | finv d a =>
    refine ends_of_finish h fun s' hs' => ?_
    obtain ⟨x, -, hs'⟩ := res_bind_eq_ok.1 hs'
    obtain ⟨r, -, hs'⟩ := res_bind_eq_ok.1 hs'
    cases hs'
    exact .field d r rfl
  | feq a b =>
    refine ends_of_finish h fun s' hs' => ?_
    obtain ⟨x, -, hs'⟩ := res_bind_eq_ok.1 hs'
    obtain ⟨y, -, hs'⟩ := res_bind_eq_ok.1 hs'
    cases hs'
    exact .flag _ rfl
  | padd d a b =>
    refine ends_of_finish h fun s' hs' => ?_
    obtain ⟨x, -, hs'⟩ := res_bind_eq_ok.1 hs'
    obtain ⟨y, -, hs'⟩ := res_bind_eq_ok.1 hs'
    obtain ⟨r, -, hs'⟩ := res_bind_eq_ok.1 hs'
    cases hs'
    exact .point d r rfl
  | pdbl d a =>
    refine ends_of_finish h fun s' hs' => ?_
    obtain ⟨x, -, hs'⟩ := res_bind_eq_ok.1 hs'
    cases hs'
    exact .point d _ rfl
  | smul d b k =>
    refine ends_of_finish h fun s' hs' => ?_
    obtain ⟨x, hx, hs'⟩ := res_bind_eq_ok.1 hs'
    obtain ⟨y, -, hs'⟩ := res_bind_eq_ok.1 hs'
    obtain ⟨r, -, hs'⟩ := res_bind_eq_ok.1 hs'
    cases hs'
    exact .multiple d b k x r rfl (need_eq_ok.1 hx)
  | peq a b =>
    refine ends_of_finish h fun s' hs' => ?_
    obtain ⟨x, -, hs'⟩ := res_bind_eq_ok.1 hs'
    obtain ⟨y, -, hs'⟩ := res_bind_eq_ok.1 hs'
    cases hs'
    exact .flag _ rfl
  | ldg d => exact ends_of_finish (r := .ok (setQ s d generator)) h fun s' hs' => by cases hs'; exact .point d _ rfl
  | ldf r off =>
    refine ends_of_finish h fun s' hs' => ?_
    obtain ⟨bs, -, hs'⟩ := res_bind_eq_ok.1 hs'
    obtain ⟨v, -, hs'⟩ := res_bind_eq_ok.1 hs'
    cases hs'
    exact .field r v rfl
  | stf r off => exact store_effect h rfl fun v => by simp [storedRange]
  | ldk r off =>
    refine ends_of_finish h fun s' hs' => ?_
    obtain ⟨bs, -, hs'⟩ := res_bind_eq_ok.1 hs'
    cases hs'
    exact .integer r _ rfl
  | stk r off => exact store_effect h rfl fun v => by simp [storedRange]
  | ldp r off =>
    refine ends_of_finish h fun s' hs' => ?_
    obtain ⟨bs, -, hs'⟩ := res_bind_eq_ok.1 hs'
    obtain ⟨p, -, hs'⟩ := res_bind_eq_ok.1 hs'
    cases hs'
    exact .point r p rfl
  | stp r off => exact store_effect h rfl fun v => by simp [storedRange]
  | b58enc dst src len => exact base58_effect h rfl rfl rfl fun p hp => ⟨p, rfl, hp⟩
  | b58chk dst src len =>
    refine base58_effect h rfl rfl rfl fun p hp => ⟨p ++ checksum p, rfl, ?_⟩
    rw [List.length_append, checksum_length]
    have : Config.chkMax + 4 = Config.lMax := rfl
    omega

/-- No effect of a command writes the command word or the fault flag: these are the completion's. -/
theorem Effect.cmd_err {i : Instr} {s s' : State} (h : Effect i s s') : s'.cmd = s.cmd ∧ s'.err = s.err := by
  cases h <;> exact ⟨rfl, rfl⟩

/-- The engine's turn in a busy block completes what is running: `BUSY` falls, `DONE` rises, `CMD` stays (10_state.md R45). -/
theorem engineTurn_completes {s t : State} (hb : s.busy = true) (h : engineTurn s = .next t) :
    t.busy = false ∧ t.done = true ∧ t.cmd = s.cmd := by
  simp only [engineTurn, hb, if_true, completeCommand] at h
  split at h
  · rcases exec_cases h with ⟨s', he, rfl⟩ | ⟨c, rfl⟩
    · exact ⟨rfl, rfl, he.cmd_err.1⟩
    · exact ⟨rfl, rfl, rfl⟩
  · rw [finish_error, Host.Outcome.next.injEq] at h
    subst h
    exact ⟨rfl, rfl, rfl⟩

/-- A run takes its first step and goes on from there. -/
theorem run_of_step {s t : State} (h : step s = .next t) (n : Nat) :
    Host.Core.run Sys2Proof.core (n + 1) s = Host.Core.run Sys2Proof.core n t := by
  have first : ∀ (M : Host.Core) (s t : M.State), M.step s = .next t → M.run (n + 1) s = M.run n t := by
    intro M s t h
    rw [Host.Core.run, h]
  exact first Sys2Proof.core s t h

end Sys2Proof.Machine
end

