-- ==== Sys2Proof/Laws/PerInstr.lean ====
section
/-! SUPPORT. Statements for all instructions, one lemma per constructor: the `OP` field of an instruction's word is its opcode,
and the fields its format does not use are zero (30_encoding.md R92, R93, R95). -/

namespace Sys2Proof.Laws.OpField

/-- The fields a command's format does not use (30_encoding.md R93), as the fields of its word. -/
def unusedFields (i : Instr) : List Nat :=
  let w := encode i
  match i with
  | .nop => [aField w, bField w, cField w]
  | .fadd _ _ _ => []
  | .fsub _ _ _ => []
  | .fmul _ _ _ => []
  | .fdiv _ _ _ => []
  | .fpow _ _ _ => []
  | .finv _ _ => [cField w]
  | .feq _ _ => [aField w]
  | .padd _ _ _ => []
  | .pdbl _ _ => [cField w]
  | .smul _ _ _ => []
  | .peq _ _ => [aField w]
  | .ldg _ => [bField w, cField w]
  | .ldf _ _ => [cField w]
  | .stf _ _ => [cField w]
  | .ldk _ _ => [cField w]
  | .stk _ _ => [cField w]
  | .ldp _ _ => [cField w]
  | .stp _ _ => [cField w]
  | .b58enc _ _ _ => []
  | .b58chk _ _ _ => []

/-- The `OP` field of the word is the command's opcode, and every unused field is zero. -/
def Statement (i : Instr) : Prop := opField (encode i) = opcodeOf i ∧ ∀ v ∈ unusedFields i, v = 0

theorem nop : Statement .nop := by
  refine ⟨opField_packWord (opcodeOf_lt _) _ _ _, ?_⟩
  simp [unusedFields, encode]

theorem fadd (d a b : FReg) : Statement (.fadd d a b) := by
  refine ⟨opField_packWord (opcodeOf_lt _) _ _ _, ?_⟩
  simp [unusedFields]

theorem fsub (d a b : FReg) : Statement (.fsub d a b) := by
  refine ⟨opField_packWord (opcodeOf_lt _) _ _ _, ?_⟩
  simp [unusedFields]

theorem fmul (d a b : FReg) : Statement (.fmul d a b) := by
  refine ⟨opField_packWord (opcodeOf_lt _) _ _ _, ?_⟩
  simp [unusedFields]

theorem fdiv (d a b : FReg) : Statement (.fdiv d a b) := by
  refine ⟨opField_packWord (opcodeOf_lt _) _ _ _, ?_⟩
  simp [unusedFields]

theorem fpow (d a : FReg) (e : KReg) : Statement (.fpow d a e) := by
  refine ⟨opField_packWord (opcodeOf_lt _) _ _ _, ?_⟩
  simp [unusedFields]

theorem finv (d a : FReg) : Statement (.finv d a) := by
  refine ⟨opField_packWord (opcodeOf_lt _) _ _ _, ?_⟩
  simp [unusedFields, encode]

theorem feq (a b : FReg) : Statement (.feq a b) := by
  refine ⟨opField_packWord (opcodeOf_lt _) _ _ _, ?_⟩
  simp [unusedFields, encode]

theorem padd (d a b : QReg) : Statement (.padd d a b) := by
  refine ⟨opField_packWord (opcodeOf_lt _) _ _ _, ?_⟩
  simp [unusedFields]

theorem pdbl (d a : QReg) : Statement (.pdbl d a) := by
  refine ⟨opField_packWord (opcodeOf_lt _) _ _ _, ?_⟩
  simp [unusedFields, encode]

theorem smul (d b : QReg) (k : KReg) : Statement (.smul d b k) := by
  refine ⟨opField_packWord (opcodeOf_lt _) _ _ _, ?_⟩
  simp [unusedFields]

theorem peq (a b : QReg) : Statement (.peq a b) := by
  refine ⟨opField_packWord (opcodeOf_lt _) _ _ _, ?_⟩
  simp [unusedFields, encode]

theorem ldg (d : QReg) : Statement (.ldg d) := by
  refine ⟨opField_packWord (opcodeOf_lt _) _ _ _, ?_⟩
  simp [unusedFields, encode]

theorem ldf (r : FReg) (off : Nat) : Statement (.ldf r off) := by
  refine ⟨opField_packWord (opcodeOf_lt _) _ _ _, ?_⟩
  simp [unusedFields, encode]

theorem stf (r : FReg) (off : Nat) : Statement (.stf r off) := by
  refine ⟨opField_packWord (opcodeOf_lt _) _ _ _, ?_⟩
  simp [unusedFields, encode]

theorem ldk (r : KReg) (off : Nat) : Statement (.ldk r off) := by
  refine ⟨opField_packWord (opcodeOf_lt _) _ _ _, ?_⟩
  simp [unusedFields, encode]

theorem stk (r : KReg) (off : Nat) : Statement (.stk r off) := by
  refine ⟨opField_packWord (opcodeOf_lt _) _ _ _, ?_⟩
  simp [unusedFields, encode]

theorem ldp (r : QReg) (off : Nat) : Statement (.ldp r off) := by
  refine ⟨opField_packWord (opcodeOf_lt _) _ _ _, ?_⟩
  simp [unusedFields, encode]

theorem stp (r : QReg) (off : Nat) : Statement (.stp r off) := by
  refine ⟨opField_packWord (opcodeOf_lt _) _ _ _, ?_⟩
  simp [unusedFields, encode]

theorem b58enc (dst src len : Nat) : Statement (.b58enc dst src len) := by
  refine ⟨opField_packWord (opcodeOf_lt _) _ _ _, ?_⟩
  simp [unusedFields]

theorem b58chk (dst src len : Nat) : Statement (.b58chk dst src len) := by
  refine ⟨opField_packWord (opcodeOf_lt _) _ _ _, ?_⟩
  simp [unusedFields]

end Sys2Proof.Laws.OpField
end

