-- ==== Sys2Proof/Tests/Slice0.lean ====
section
/-! SUPPORT. Tests: ill-formed terms, words written out from 30_encoding.md, single steps from the vectors of 95_test_vectors.md (each
test names its vector), and for every obligation with hypotheses a named witness that meets them. -/

namespace Sys2Proof.Tests

-- one theorem at a time: each is checked by the kernel, and so many at once would each wait on a thread of its own
set_option Elab.async false

open Sys2Proof.Machine

/-! ### Helpers -/

/-- The state a command or a step ends in. -/
def after (o : Out) : Option State :=
  match o with
  | .next t => some t
  | .fault _ => none
  | .refused _ => none

/-- One step that completes the command word `w`. -/
def run (w : Nat) (s : State) : Option State := after (step (s.withFetchWord 32 w))

/-- A field element from its integer. -/
def fe (v : Nat) : Fe := normFe (v : Int)

/-- A finite point from its coordinates. -/
def pt (x y : Nat) : Point := .finite (fe x) (fe y)

/-- `BUF` with a byte string from an offset. -/
def mem (off : Nat) (bs : List Byte) : Memory := setBytes [] off bs

/-- The reset state with that `BUF`. -/
def withBuf (m : Memory) : State := { State.reset with buf := m }

/-- The reset state with `F[1]` and `F[2]`. -/
def withF (x y : Nat) : State := setF (setF State.reset 1 (fe x)) 2 (fe y)

/-- The reset state with `Q[1]` and `Q[2]`. -/
def withQ (p q : Point) : State := setQ (setQ State.reset 1 p) 2 q

/-- What an `F` register holds after a step. -/
def fAfter (r : FReg) (o : Option State) : Option Nat := o.bind fun t => (regF t r).map Fin.val

/-- What a `K` register holds after a step. -/
def kAfter (r : KReg) (o : Option State) : Option Nat := o.bind fun t => (regK t r).map BitVec.toNat

/-- What a `Q` register holds after a step. -/
def qAfter (r : QReg) (o : Option State) : Option Point := o.bind fun t => regQ t r

/-- `STATUS`, `ERRCODE` and `ERRINFO` after a step. -/
def record (o : Option State) : Option (Nat × Nat × Nat) :=
  o.map fun t => ((statusWord t).toNat, t.errcode.toNat, t.errinfo.toNat)

/-- The characters of a text as bytes. -/
def ascii (text : String) : List Byte := text.toList.map fun c => BitVec.ofNat 8 c.toNat

/-- `RLEN` and the bytes stored from an offset, after a step. -/
def stringAfter (off : Nat) (o : Option State) : Option (List Byte) :=
  o.map fun t => bytesAt t.buf off t.rlen.toNat

/-- The test point `2G` of 95_test_vectors.md. -/
def twoG : Point := pt 0xC6047F9441ED7D6D3045406E95C07CD85C778E4B8CEF3CA7ABAC09B95C709EE5
  0x1AE168FEA63DC339A3C58419466CEAEEF7F632653266D0E1236431A950CFE52A

/-- The test point `3G` of 95_test_vectors.md. -/
def threeG : Point := pt 0xF9308A019258C31049344F85F89D5229B531C845836F99B08601F113BCE036F9
  0x388F7B0F632DE8140FE337E62A37F3566500A99934C2231B6CB9FD7584B8E672

/-! ### Ill-formed terms (30_encoding.md R94): one for each check of `WellFormed` -/

theorem test_wf_ldf_offset : WellFormed (.ldf 0 256) = false ∧ WellFormed (.ldf 0 255) = true := by decide

theorem test_wf_stf_offset : WellFormed (.stf 0 256) = false ∧ WellFormed (.stf 0 255) = true := by decide

theorem test_wf_ldk_offset : WellFormed (.ldk 0 256) = false ∧ WellFormed (.ldk 0 255) = true := by decide

theorem test_wf_stk_offset : WellFormed (.stk 0 256) = false ∧ WellFormed (.stk 0 255) = true := by decide

theorem test_wf_ldp_offset : WellFormed (.ldp 0 256) = false ∧ WellFormed (.ldp 0 255) = true := by decide

theorem test_wf_stp_offset : WellFormed (.stp 0 256) = false ∧ WellFormed (.stp 0 255) = true := by decide

theorem test_wf_b58enc_dst : WellFormed (.b58enc 256 0 0) = false := by decide

theorem test_wf_b58enc_src : WellFormed (.b58enc 0 256 0) = false := by decide

theorem test_wf_b58enc_len : WellFormed (.b58enc 0 0 256) = false := by decide

theorem test_wf_b58enc_top : WellFormed (.b58enc 255 255 255) = true := by decide

theorem test_wf_b58chk_dst : WellFormed (.b58chk 256 0 0) = false := by decide

theorem test_wf_b58chk_src : WellFormed (.b58chk 0 256 0) = false := by decide

theorem test_wf_b58chk_len : WellFormed (.b58chk 0 0 256) = false := by decide

theorem test_wf_b58chk_top : WellFormed (.b58chk 255 255 255) = true := by decide

/-! ### Decoding: for every constructor a word written out field by field, `OP ++ A ++ B ++ C` (30_encoding.md R92, R93, R95) -/

theorem test_decode_nop : decode (0b00000000#8 ++ 0b00000000#8 ++ 0b00000000#8 ++ 0b00000000#8) = .ok .nop := by decide

theorem test_decode_fadd :
    decode (0b00010000#8 ++ 0b00000001#8 ++ 0b00000010#8 ++ 0b00000011#8) = .ok (.fadd 1 2 3) := by decide

theorem test_decode_fsub :
    decode (0b00010001#8 ++ 0b00000111#8 ++ 0b00000000#8 ++ 0b00000101#8) = .ok (.fsub 7 0 5) := by decide

theorem test_decode_fmul :
    decode (0b00010010#8 ++ 0b00000100#8 ++ 0b00000110#8 ++ 0b00000001#8) = .ok (.fmul 4 6 1) := by decide

theorem test_decode_fdiv :
    decode (0b00010011#8 ++ 0b00000010#8 ++ 0b00000111#8 ++ 0b00000011#8) = .ok (.fdiv 2 7 3) := by decide

theorem test_decode_fpow :
    decode (0b00010100#8 ++ 0b00000110#8 ++ 0b00000101#8 ++ 0b00000011#8) = .ok (.fpow 6 5 3) := by decide

theorem test_decode_finv : decode (0b00010101#8 ++ 0b00000011#8 ++ 0b00000111#8 ++ 0b00000000#8) = .ok (.finv 3 7) := by decide

theorem test_decode_feq : decode (0b00010110#8 ++ 0b00000000#8 ++ 0b00000110#8 ++ 0b00000001#8) = .ok (.feq 6 1) := by decide

theorem test_decode_padd :
    decode (0b00100000#8 ++ 0b00000011#8 ++ 0b00000001#8 ++ 0b00000010#8) = .ok (.padd 3 1 2) := by decide

theorem test_decode_pdbl : decode (0b00100001#8 ++ 0b00000010#8 ++ 0b00000011#8 ++ 0b00000000#8) = .ok (.pdbl 2 3) := by decide

theorem test_decode_smul :
    decode (0b00100010#8 ++ 0b00000001#8 ++ 0b00000010#8 ++ 0b00000011#8) = .ok (.smul 1 2 3) := by decide

theorem test_decode_peq : decode (0b00100011#8 ++ 0b00000000#8 ++ 0b00000011#8 ++ 0b00000001#8) = .ok (.peq 3 1) := by decide

theorem test_decode_ldg : decode (0b00100100#8 ++ 0b00000011#8 ++ 0b00000000#8 ++ 0b00000000#8) = .ok (.ldg 3) := by decide

theorem test_decode_ldf : decode (0b00110000#8 ++ 0b00000111#8 ++ 0b11100000#8 ++ 0b00000000#8) = .ok (.ldf 7 224) := by decide

theorem test_decode_stf : decode (0b00110001#8 ++ 0b00000100#8 ++ 0b11111111#8 ++ 0b00000000#8) = .ok (.stf 4 255) := by decide

theorem test_decode_ldk : decode (0b00110010#8 ++ 0b00000011#8 ++ 0b00000001#8 ++ 0b00000000#8) = .ok (.ldk 3 1) := by decide

theorem test_decode_stk : decode (0b00110011#8 ++ 0b00000010#8 ++ 0b10000000#8 ++ 0b00000000#8) = .ok (.stk 2 128) := by decide

theorem test_decode_ldp : decode (0b00110100#8 ++ 0b00000011#8 ++ 0b10111111#8 ++ 0b00000000#8) = .ok (.ldp 3 191) := by decide

theorem test_decode_stp : decode (0b00110101#8 ++ 0b00000001#8 ++ 0b01000000#8 ++ 0b00000000#8) = .ok (.stp 1 64) := by decide

theorem test_decode_b58enc :
    decode (0b01000000#8 ++ 0b10000000#8 ++ 0b00000001#8 ++ 0b00100110#8) = .ok (.b58enc 128 1 38) := by decide

theorem test_decode_b58chk :
    decode (0b01000001#8 ++ 0b11111111#8 ++ 0b00000010#8 ++ 0b00100010#8) = .ok (.b58chk 255 2 34) := by decide

/-- Vector D3. -/
theorem test_illegal_opcode :
    decode 0x01000000#32 = .error .opcode ∧
    decode 0x17000000#32 = .error .opcode ∧
    decode 0x25000000#32 = .error .opcode ∧
    decode 0x36000000#32 = .error .opcode ∧
    decode 0x42000000#32 = .error .opcode ∧
    decode 0xFFFFFFFF#32 = .error .opcode := by decide

/-- Vectors D2, D7, D8, D10, D11, D12. -/
theorem test_illegal_unused :
    decode 0x00000001#32 = .error .unusedField ∧
    decode 0x15000001#32 = .error .unusedField ∧
    decode 0x16010000#32 = .error .unusedField ∧
    decode 0x21000001#32 = .error .unusedField ∧
    decode 0x24000100#32 = .error .unusedField ∧
    decode 0x30000001#32 = .error .unusedField := by decide

/-- Vectors D5, D12. -/
theorem test_illegal_f_index :
    decode 0x10080000#32 = .error .registerIndex ∧
    decode 0x10000800#32 = .error .registerIndex ∧
    decode 0x10000008#32 = .error .registerIndex ∧
    decode 0x30080000#32 = .error .registerIndex := by decide

/-- Vectors D6, D9, D13. -/
theorem test_illegal_kq_index :
    decode 0x14000004#32 = .error .registerIndex ∧
    decode 0x20040000#32 = .error .registerIndex ∧
    decode 0x22000004#32 = .error .registerIndex ∧
    decode 0x32040000#32 = .error .registerIndex ∧
    decode 0x35040000#32 = .error .registerIndex := by decide

/-! ### The constants (00_scope.md R7) -/

theorem test_prime_shape : Config.P = 2 ^ 256 - 2 ^ 32 - 977 := by decide +kernel

theorem test_generator_on_curve :
    Config.Gy * Config.Gy % Config.P = (Config.Gx * Config.Gx * Config.Gx + 7) % Config.P := by decide +kernel

theorem test_order_below_prime : Config.N < Config.P := by decide +kernel

/-- Vector S7: `(N-1)·G = -G`, so `N·G` is infinite. -/
theorem test_order_of_generator :
    (scalarMulWith (BitVec.ofNat 256 (Config.N - 1)) (tbl generator)) =
      .ok (pt Config.Gx (Config.P - Config.Gy)) := by decide +kernel

/-! ### One step per command (95_test_vectors.md) -/

/-- Vector M1. -/
theorem test_nop : record (run 0x00000000 State.reset) = some (2, 0, 0) := by decide +kernel

/-- Vector F1. -/
theorem test_fadd :
    fAfter 0 (run 0x10000102 (withF Config.Gx Config.Gy)) =
      some 0xC1F940F620808011B3455E91DC9813AFFFB3B123D4537CF2F63A51EB1208EC50 := by decide +kernel

/-- Vector F30. -/
theorem test_fadd_in_place : fAfter 1 (run 0x10010101 (withF (Config.P - 1) 0)) = some (Config.P - 2) := by decide +kernel

/-- Vector F5. -/
theorem test_fsub :
    fAfter 0 (run 0x11000201 (withF Config.Gx Config.Gy)) =
      some 0xCE7C73F82CC708B9080499663F89FDA1FA7BB76D78B72B4042554F33E418B94F := by decide +kernel

/-- Vector F6. -/
theorem test_fsub_borrows : fAfter 0 (run 0x11000102 (withF 0 1)) = some (Config.P - 1) := by decide +kernel

/-- Vector F8. -/
theorem test_fmul :
    fAfter 0 (run 0x12000102 (withF Config.Gx Config.Gy)) =
      some 0xFD3DC529C6EB60FB9D166034CF3C1A5A72324AA9DFD3428A56D7E1CE0179FD9B := by decide +kernel

/-- Vector F9. -/
theorem test_fmul_top : fAfter 0 (run 0x12000102 (withF (Config.P - 1) (Config.P - 1))) = some 1 := by decide +kernel

/-- Vector F12. -/
theorem test_fdiv :
    fAfter 0 (run 0x13000102 (withF Config.Gx Config.Gy)) =
      some 0x2DB7DA16EF4BD6E01DFAAD38C11521CBC90DDA6DED1975FC41895C5D541F5127 := by decide +kernel

/-- Vector F13. -/
theorem test_fdiv_zero : record (run 0x13000102 (withF 0 0)) = some (6, 2, 0x13000102) := by decide +kernel

/-- Vector F25. -/
theorem test_fpow :
    fAfter 0 (run 0x14000101 (setK (withF 2 0) 1 (BitVec.ofNat 256 (2 ^ 256 - 1)))) =
      some 0x8DEF9A2D066170A549DA6A66080937DB048EFE08772C8F7C20E351DFB71856E0 := by decide +kernel

/-- Vector F20. -/
theorem test_fpow_zero_zero : fAfter 0 (run 0x14000101 (setK (withF 0 0) 1 0#256)) = some 1 := by decide +kernel

/-- Vector F15. -/
theorem test_finv :
    fAfter 0 (run 0x15000100 (withF 3 0)) =
      some 0xAAAAAAAAAAAAAAAAAAAAAAAAAAAAAAAAAAAAAAAAAAAAAAAAAAAAAAA9FFFFFD75 := by decide +kernel

/-- Vectors F17, X7. -/
theorem test_finv_zero : record (run 0x15020000 (setF State.reset 0 (fe 0))) = some (6, 2, 0x15020000) := by decide +kernel

/-- Vector F28: `T` is cleared. -/
theorem test_feq_differ :
    record (run 0x16000102 { withF 0 (Config.P - 1) with t := true }) = some (2, 0, 0) := by decide +kernel

/-- Vector F29. -/
theorem test_feq_same : record (run 0x16000101 (withF 5 0)) = some (0x0A, 0, 0) := by decide +kernel

/-- Vector A4. -/
theorem test_padd_chord : qAfter 0 (run 0x20000102 (withQ generator twoG)) = some threeG := by decide +kernel

/-- Vectors A15, X6. -/
theorem test_padd_clash : record (run 0x20000102 (withQ (pt 1 1) (pt 1 2))) = some (6, 2, 0x20000102) := by decide +kernel

/-- Vector A14. -/
theorem test_pdbl :
    qAfter 0 (run 0x21000100 (withQ (pt 1 1) .infinity)) =
      some (pt 0x3FFFFFFFFFFFFFFFFFFFFFFFFFFFFFFFFFFFFFFFFFFFFFFFFFFFFFFFBFFFFF0C
        0x1FFFFFFFFFFFFFFFFFFFFFFFFFFFFFFFFFFFFFFFFFFFFFFFFFFFFFFFDFFFFF86) := by decide +kernel

/-- Vector A11. -/
theorem test_pdbl_two_torsion : qAfter 0 (run 0x21000100 (withQ (pt 5 0) .infinity)) = some .infinity := by decide +kernel

/-- Vector S8. -/
theorem test_smul :
    qAfter 0 (run 0x22000101 (setK (withQ generator .infinity) 1
        0xC4BBCB1FBEC99D65BF59D85C8CB62EE2DB963F0FE106F483D9AFA73BD4E39A8A#256)) =
      some (pt 0x78D430274F8C5EC1321338151E9F27F4C676A008BDF8638D07C0B6BE9AB35C71
        0xA1518063243ACD4DFE96B66E3F2EC8013C8E072CD09B3834A19F81F659CC3455) := by decide +kernel

/-- Vector S12. -/
theorem test_smul_off_curve :
    qAfter 0 (run 0x22000101 (setK (withQ (pt 5 0) .infinity) 1 7#256)) = some (pt 5 0) := by decide +kernel

/-- Vector A17. -/
theorem test_peq_tag : record (run 0x23000102 (withQ .infinity (pt 0 0))) = some (2, 0, 0) := by decide +kernel

/-- Vector A18. -/
theorem test_peq_same : record (run 0x23000102 (withQ .infinity .infinity)) = some (0x0A, 0, 0) := by decide +kernel

/-- Vector A20. -/
theorem test_ldg : qAfter 3 (run 0x24030000 State.reset) = some (pt Config.Gx Config.Gy) := by decide +kernel

/-- Vector M5. -/
theorem test_ldf_top :
    fAfter 0 (run 0x30000000 (withBuf (mem 0 (bytes32 (Config.P - 1))))) = some (Config.P - 1) := by decide +kernel

/-- Vector M4. -/
theorem test_ldf_not_reduced :
    record (run 0x30000000 (withBuf (mem 0 (bytes32 Config.P)))) = some (6, 7, 0x30000000) := by decide +kernel

/-- Vector M8. -/
theorem test_stf : (run 0x3101E000 (withF 1 0)).map (fun t => t.buf) = some [(0xFF, 0x01#8)] := by decide +kernel

/-- Vector M10. -/
theorem test_stf_range : (run 0x3101E100 (withF 1 0)).map (fun t => (t.buf, t.errcode)) = some ([], 8#8) := by decide +kernel

/-- Vector M6. -/
theorem test_ldk_no_check : kAfter 0 (run 0x32000000 (withBuf (mem 0 (bytes32 Config.P)))) = some Config.P := by decide +kernel

/-- Vector M7. -/
theorem test_ldk_top :
    kAfter 3 (run 0x3203E000 (withBuf (mem 0xE0 (List.replicate 32 0xFF#8)))) = some (2 ^ 256 - 1) := by decide +kernel

/-- Vector M19. -/
theorem test_stk :
    ((run 0x33002000 (setK State.reset 0 (BitVec.ofNat 256 Config.N))).bind (run 0x30002000) |> fAfter 0) = some Config.N := by decide +kernel

/-- Vector M14. -/
theorem test_ldp_infinity : qAfter 0 (run 0x34000000 (withBuf (mem 1 (bytes32 Config.P)))) = some .infinity := by decide +kernel

/-- Vector M16. -/
theorem test_ldp_bad_tag : record (run 0x34000000 (withBuf (mem 0 [0x04#8]))) = some (6, 7, 0x34000000) := by decide +kernel

/-- Vector M17, over bytes that were not zero. -/
theorem test_stp_infinity :
    (run 0x35014000 { withQ .infinity .infinity with buf := mem 0x3F (List.replicate 67 0xFF#8) }).map (fun t => t.buf) =
      some [(0x3F, 0xFF#8), (0x81, 0xFF#8)] := by decide +kernel

/-- Vector M18. -/
theorem test_stp_finite :
    (run 0x35014000 (withQ twoG .infinity)).map (fun t => (bytesAt t.buf 0x40 5, bytesAt t.buf 0x7D 5)) =
      some ([0x01#8, 0xC6#8, 0x04#8, 0x7F#8, 0x94#8], [0x50#8, 0xCF#8, 0xE5#8, 0x2A#8, 0x00#8]) := by decide +kernel

/-- Vector B10. -/
theorem test_b58enc :
    stringAfter 0x80 (run 0x4080000C (withBuf (mem 0 (ascii "Hello World!")))) =
      some (ascii "2NEpo7TZRRrLZSi2U") := by decide +kernel

/-- Vector B36. -/
theorem test_b58enc_in_place :
    stringAfter 0xFD (run 0x40FDFD03 (withBuf (mem 0xFF [0x01#8]))) = some (ascii "112") := by decide +kernel

/-- Vector B31. -/
theorem test_b58chk_limit : record (run 0x4100003D State.reset) = some (6, 8, 0x4100003D) := by decide +kernel

/-- Vector B20, with the checksum the vector gives (the hash is a free value). -/
theorem test_b58chk_framed :
    b58Encode (0x80#8 :: bytes32 1 ++ [0xA8#8, 0x5A#8, 0xA8#8, 0x7E#8]) =
      ascii "5HpHagT65TZzG1PH3CSu63k8DbpvD8s5ip4nEB3kEsreAnchuDf" := by decide +kernel

/-! ### Faults and host accesses (95_test_vectors.md 2.7, 2.8) -/

/-- Vector X1. -/
theorem test_invalid_source_first :
    record (run 0x22000100 (setK State.reset 0 0#256)) = some (6, 6, 0x22000100) := by decide +kernel

/-- Vector X4. -/
theorem test_illegal_word : record (run 0x3009F000 State.reset) = some (6, 5, 0x3009F000) := by decide +kernel

/-- Vector H2. -/
theorem test_write_id :
    hostAccess ⟨32, 0x000#12, .write 5#32⟩ State.reset = { State.reset with ovr := true, resp := some .err } := by decide +kernel

/-- Vector H4. -/
theorem test_misaligned :
    (hostAccess ⟨32, 0x006#12, .read⟩ State.reset).resp = some .err ∧ (hostAccess ⟨32, 0x101#12, .read⟩ State.reset).resp = some .err := by decide +kernel

/-- Vector H5. -/
theorem test_reserved :
    (hostAccess ⟨32, 0x020#12, .read⟩ State.reset).resp = some .err ∧ (hostAccess ⟨32, 0x0FC#12, .write 1#32⟩ State.reset).resp = some .err ∧
    (hostAccess ⟨32, 0x200#12, .read⟩ State.reset).resp = some .err ∧ (hostAccess ⟨32, 0xFFC#12, .read⟩ State.reset).resp = some .err := by decide +kernel

/-- Vector H6. -/
theorem test_buf_window :
    (hostAccess ⟨32, 0x100#12, .write 0x79BE667E#32⟩ State.reset).buf =
      [(0, 0x79#8), (1, 0xBE#8), (2, 0x66#8), (3, 0x7E#8)] := by decide +kernel

/-- Vector H13. -/
theorem test_ctrl_clrerr :
    hostAccess ⟨32, 0x018#12, .write 1#32⟩ (raiseFault .invalidPoint { State.reset with t := true, ovr := true }) =
      { State.reset with t := true, ovr := true, done := true, resp := some .okWrite } := by decide +kernel

/-- Vector H15. -/
theorem test_ien : (hostAccess ⟨32, 0x01C#12, .write 0xFFFFFFFF#32⟩ State.reset).ien = 3#2 := by decide +kernel

/-- 70_reset_and_hazards.md R274: the run ends in fault 1 and the third word is never issued. -/
theorem test_stream_stops_at_fault :
    runStream 0 [0x00000000#32, 0x15020000#32, 0x24000000#32] State.reset =
      .faultAt 1 { State.reset with
        cmd := 0x15020000#32, done := true, err := true, errcode := 6#8, errinfo := 0x15020000#32,
        resp := some .okWrite } := by decide +kernel

/-! ### Witnesses: for each obligation with hypotheses, values that meet them, clause by clause and at the ends of the ranges -/

/-- Registers of every file hold a value, `BUF` is not empty. -/
def full : State :=
  { setK (setK (setK (setK (setF (setF (setF (setF State.reset 0 (fe 0)) 1 (fe 1)) 2 (fe 2)) 7 (fe (Config.P - 1)))
      0 0#256) 1 1#256) 2 2#256) 3 (BitVec.ofNat 256 (Config.N - 1)) with
    q := #v[some .infinity, some generator, some (pt 1 1), some (pt 1 2)],
    buf := mem 0 (0x01#8 :: List.replicate 64 0xFF#8) }

/-- A command is running and its completion is the next event. -/
def running : State := State.reset.withFetchWord 32 0x24000000

theorem witness_DecodeEncodeRoundTrip :
    WellFormed (.b58enc 255 255 255) = true ∧ WellFormed (.ldf 7 0) = true := by decide +kernel

theorem witness_EncodeDecodeRoundTrip : decode 0x40FFFFFF#32 = .ok (.b58enc 255 255 255) := by decide +kernel

theorem witness_DecodeFollowsOpcodeMap :
    decode 0x3007E000#32 = .ok (.ldf 7 0xE0) ∧ (⟨0x30, 0x30000000#32, 0xFFF800FF#32⟩ : Row) ∈ opcodeMap ∧
    rowAccepts 0x3007E000#32 ⟨0x30, 0x30000000#32, 0xFFF800FF#32⟩ = true := by decide +kernel

theorem witness_ResetValues :
    (0x00000008#32 : Word).getLsbD 3 = true ∧ (0xFFFFFFFF#32 : Word).getLsbD 3 = true := by decide +kernel

theorem witness_StepRunsDecodedCommand :
    (running.busy = true ∧ decode running.cmd = .ok (.ldg 0) ∧ running.sched = [.engine]) ∧
    (issueWord 0x24000000#32 State.reset).busy = true ∧ decode (issueWord 0x24000000#32 State.reset).cmd = .ok (.ldg 0) ∧
    (issueWord 0x24000000#32 State.reset).sched = [] := by decide +kernel

theorem witness_StepPerformsOtherEvents :
    (∃ s : State, s.sched = .access ⟨32, 0x000#12, .read⟩ :: []) ∧ (∃ s : State, s.sched = .hardReset :: []) ∧
    (∃ s : State, s.sched = .engine :: [] ∧ s.busy = false) ∧ (∃ s : State, s.sched = [] ∧ s.busy = false) := 
  ⟨⟨{ State.reset with sched := [.access ⟨32, 0x000#12, .read⟩] }, rfl⟩, ⟨{ State.reset with sched := [.hardReset] }, rfl⟩,
    ⟨{ State.reset with sched := [.engine] }, rfl, rfl⟩, ⟨State.reset, rfl, rfl⟩⟩

theorem witness_IllegalWordFaultsAtCompletion :
    decode 0x00000001#32 = .error .unusedField ∧ State.reset.busy = false ∧ State.reset.err = false := by decide +kernel

theorem witness_CommandCompletesOrFaultsPrecisely :
    (∃ t, exec (.finv 0 3) full = .next t ∧ full.err = false ∧ t.err = true) ∧ ∃ t, exec .nop full = .next t ∧ t.err = false := ⟨⟨_, rfl, by decide +kernel⟩, _, rfl, by decide +kernel⟩

theorem witness_FaultsAreOfTheTable :
    ∃ t, full.err = false ∧ exec (.finv 0 0) full = .next t ∧ t.err = true := ⟨_, by decide +kernel, rfl, by decide +kernel⟩

theorem witness_UninitSourceFaults :
    full.err = false ∧ sourcesValid (.fadd 0 1 3) full = false ∧ sourcesValid (.fadd 0 1 2) full = true := by decide +kernel

theorem witness_SumDifferenceProduct : regF full 7 = some (fe (Config.P - 1)) ∧ regF full 1 = some (fe 1) := by decide +kernel

theorem witness_FdivResult :
    regF full 0 = some (fe 0) ∧ regF full 7 = some (fe (Config.P - 1)) ∧ (fe (Config.P - 1)).val ≠ 0 := by decide +kernel

theorem witness_DivisionInvertsMultiplication :
    regF full 0 = some (fe 0) ∧ regF full 7 = some (fe (Config.P - 1)) ∧ (fe (Config.P - 1)).val ≠ 0 := by decide +kernel

theorem witness_FinvResult : regF full 1 = some (fe 1) ∧ (fe 1).val ≠ 0 := by decide +kernel

theorem witness_FpowResult : regF full 7 = some (fe (Config.P - 1)) ∧ regK full 0 = some 0#256 := by decide +kernel

theorem witness_ZeroDivisorFaults :
    regF full 7 = some (fe (Config.P - 1)) ∧ regF full 0 = some (fe 0) ∧ (fe 0).val = 0 := by decide +kernel

theorem witness_FeqResult : regF full 0 = some (fe 0) ∧ regF full 7 = some (fe (Config.P - 1)) := by decide +kernel

theorem witness_GenericFieldInstantiates :
    (⟨0, 2, by decide⟩ : FieldElement).modulus ≠ (⟨0, 3, by decide⟩ : FieldElement).modulus := by decide +kernel

theorem witness_PaddIdentityAndInverse :
    regQ full 0 = some .infinity ∧ regQ full 1 = some generator ∧
    regQ (withQ (pt 5 0) (pt 5 0)) 1 = some (.finite (fe 5) (fe 0)) ∧ regQ (withQ (pt 5 0) (pt 5 0)) 2 = some (.finite (fe 5) (fe 0)) ∧
    ((fe 0).val + (fe 0).val) % Config.P = 0 ∧ ((fe 1).val + (fe (Config.P - 1)).val) % Config.P = 0 := by decide +kernel

theorem witness_PaddOfEqualPoints : regQ full 2 = some (.finite (fe 1) (fe 1)) ∧ (fe 1).val ≠ 0 := by decide +kernel

theorem witness_PaddOfChord :
    regQ (withQ (pt 1 1) (pt 2 3)) 1 = some (.finite (fe 1) (fe 1)) ∧ regQ (withQ (pt 1 1) (pt 2 3)) 2 = some (.finite (fe 2) (fe 3)) ∧
    fe 1 ≠ fe 2 := by decide +kernel

theorem witness_PaddFaultsExactlyOnClash :
    full.err = false ∧ regQ full 2 = some (.finite (fe 1) (fe 1)) ∧ regQ full 3 = some (.finite (fe 1) (fe 2)) ∧ fe 1 ≠ fe 2 ∧
    ((fe 1).val + (fe 2).val) % Config.P ≠ 0 ∧ ((after (exec (.padd 0 2 3) full)).map fun t => t.err) = some true := by decide +kernel

theorem witness_PdblResult :
    regQ full 0 = some .infinity ∧ regQ (withQ (pt 5 0) .infinity) 1 = some (.finite (fe 5) (fe 0)) ∧ (fe 0).val = 0 ∧
    regQ full 2 = some (.finite (fe 1) (fe 1)) ∧ (fe 1).val ≠ 0 := by decide +kernel

theorem witness_PeqResult :
    regQ full 0 = some .infinity ∧ regQ full 1 = some generator ∧ Point.infinity ≠ generator := by decide +kernel

theorem witness_SmulInvalidScalar :
    regQ full 1 = some generator ∧ regK full 0 = some 0#256 ∧ (0#256 : Scalar).toNat = 0 ∧
    Config.N ≤ (BitVec.ofNat 256 Config.N).toNat ∧ regK (setK full 3 (BitVec.ofNat 256 Config.N)) 3 = some (BitVec.ofNat 256 Config.N) := by decide +kernel

/-- A cache with a table in it is coherent. -/
theorem witness_CacheCoherent : CacheCoherent { full with utbl := some ⟨.infinity, tbl .infinity⟩ } := by
  intro u hu
  cases hu
  exact ⟨rfl, by decide +kernel⟩

theorem witness_SmulCompletes :
    CacheCoherent full ∧ regQ full 2 = some (pt 1 1) ∧ regK full 1 = some 1#256 ∧ regK full 3 = some (BitVec.ofNat 256 (Config.N - 1)) ∧
    1 ≤ (1#256 : Scalar).toNat ∧ (BitVec.ofNat 256 (Config.N - 1)).toNat < Config.N := by
  refine ⟨fun u hu => ?_, by decide +kernel⟩
  cases hu

theorem witness_SmulCornerCases :
    CacheCoherent full ∧ regQ full 0 = some .infinity ∧ regQ full 2 = some (pt 1 1) ∧ regK full 1 = some 1#256 ∧
    regK full 2 = some 2#256 ∧ (1#256 : Scalar).toNat = 1 ∧ (2#256 : Scalar).toNat = 2 := by
  refine ⟨fun u hu => ?_, by decide +kernel⟩
  cases hu

theorem witness_CacheIsTransparent :
    CacheCoherent full ∧ CacheCoherent { full with utbl := some ⟨.infinity, tbl .infinity⟩ } ∧
    SameVisible full { full with utbl := some ⟨.infinity, tbl .infinity⟩ } := by
  refine ⟨fun u hu => ?_, witness_CacheCoherent, rfl⟩
  cases hu

theorem witness_Base58ByDivision : 0 < 58 ∧ (0x01#8 : Byte) ≠ 0x00#8 := by decide

/-- A crude bound that needs no value of the hash: four bytes give at most 37 characters. -/
theorem b58Encode_four (bs : List Byte) (h : bs.length = 4) : (b58Encode bs).length ≤ 37 := by
  have loop : ∀ n v : Nat, (digitLoop n v).length ≤ n := by
    intro n
    induction n with
    | zero => intro v; simp [digitLoop]
    | succ n ih =>
      intro v
      unfold digitLoop
      split
      · simp
      · simpa using ih (v / 58)
  have zeros : ∀ l : List Byte, leadingZeros l ≤ l.length := by
    intro l
    induction l with
    | nil => simp [leadingZeros]
    | cons b l ih => unfold leadingZeros; split <;> simp [ih]
  have value : be bs < 2 ^ 32 := by
    have hb := be_lt bs
    rw [h] at hb
    exact lt_of_lt_of_eq hb (by norm_num)
  have log : (be bs).log2 < 33 := by
    by_cases h0 : be bs = 0
    · rw [h0]; decide
    · have := (Nat.log2_lt h0).2 value
      omega
  have hd := loop ((be bs).log2 + 1) (be bs)
  have hz := zeros bs
  simp only [b58Encode, digits, List.length_append, List.length_replicate, List.length_map, List.length_reverse]
  omega

theorem witness_Base58Results :
    (192 + 64 ≤ 256 ∧ 64 ≤ 64 ∧ 168 + (b58Encode (bytesAt (mem 0 (List.replicate 64 0xFF#8)) 0 64)).length ≤ 256) ∧
    ∃ framed : List Byte, framed = bytesAt full.buf 0 0 ++ (Config.hash256 (Config.hash256 (bytesAt full.buf 0 0)).toList).toList.take 4 ∧
      0 + (b58Encode framed).length ≤ 256 := by
  refine ⟨by decide +kernel, _, rfl, ?_⟩
  have := b58Encode_four (bytesAt full.buf 0 0 ++ (Config.hash256 (Config.hash256 (bytesAt full.buf 0 0)).toList).toList.take 4)
    (by simp [bytesAt])
  omega

theorem witness_Base58RangeFaults :
    64 < 65 ∧ 256 < 240 + 17 ∧ 256 < 169 + (b58Encode (bytesAt (mem 0 (List.replicate 64 0xFF#8)) 0 64)).length ∧
    60 < 61 ∧ 256 < 255 + 2 := by decide +kernel

theorem witness_Base58LengthBound : (List.replicate 64 0x00#8 : List Byte).length ≤ 64 := by decide +kernel

theorem witness_Base58Injective : b58Encode [0x00#8, 0x01#8] = b58Encode [0x00#8, 0x01#8] := rfl

theorem witness_WordLoads :
    224 + 32 ≤ 256 ∧ (fe (Config.P - 1)).val = be (bytesAt (mem 224 (bytes32 (Config.P - 1))) 224 32) ∧
    (BitVec.ofNat 256 Config.P).toNat = be (bytesAt (mem 224 (bytes32 Config.P)) 224 32) := by decide +kernel

theorem witness_PointLoads :
    191 + 65 ≤ 256 ∧ byteAt State.reset.buf 191 = 0x00#8 ∧ byteAt (mem 191 (0x01#8 :: bytes32 (Config.P - 1))) 191 = 0x01#8 ∧
    (fe (Config.P - 1)).val = be (bytesAt (mem 191 (0x01#8 :: bytes32 (Config.P - 1))) (191 + 1) 32) ∧
    (fe 0).val = be (bytesAt (mem 191 (0x01#8 :: bytes32 (Config.P - 1))) (191 + 33) 32) := by decide +kernel

theorem witness_LoadsRefuseBadValues :
    Config.P ≤ be (bytesAt (mem 224 (bytes32 Config.P)) 224 32) ∧ byteAt (mem 0 [0x02#8]) 0 ≠ 0x00#8 ∧ byteAt (mem 0 [0x02#8]) 0 ≠ 0x01#8 ∧
    byteAt (mem 0 (0x01#8 :: bytes32 Config.P)) 0 = 0x01#8 ∧ Config.P ≤ be (bytesAt (mem 0 (0x01#8 :: bytes32 Config.P)) (0 + 1) 32) ∧
    Config.P ≤ be (bytesAt (mem 0 (0x01#8 :: (bytes32 0 ++ bytes32 Config.P))) (0 + 33) 32) := by decide +kernel

theorem witness_StoreResults :
    regF full 7 = some (fe (Config.P - 1)) ∧ regK full 3 = some (BitVec.ofNat 256 (Config.N - 1)) ∧ regQ full 0 = some .infinity ∧
    regQ full 2 = some (.finite (fe 1) (fe 1)) ∧ 224 + 32 ≤ 256 ∧ 191 + 65 ≤ 256 := by decide +kernel

theorem witness_TransferRangeFaults :
    224 < 225 ∧ 191 < 192 ∧ regF full 7 = some (fe (Config.P - 1)) ∧ regK full 0 = some 0#256 ∧ regQ full 0 = some .infinity := by decide +kernel

theorem witness_StoreThenLoadRestores :
    Memory.wf full.buf = true ∧ regQ full 1 = some generator ∧ regF full 7 = some (fe (Config.P - 1)) ∧ 191 + 65 ≤ 256 ∧ 224 + 32 ≤ 256 := by decide +kernel

theorem witness_FrameOfRegisters :
    (∃ t, exec (.fadd 0 1 2) full = .next t ∧ destF (.fadd 0 1 2) ≠ some 1) ∧
    ∃ t, exec (.finv 0 0) full = .next t ∧ full.err = false ∧ t.err = true := ⟨⟨_, rfl, by decide⟩, _, rfl, by decide +kernel⟩

theorem witness_FrameOfStatus :
    ∃ t, exec (.smul 0 1 2) full = .next t ∧ writesT (.smul 0 1 2) = false ∧ writesRlen (.smul 0 1 2) = false := ⟨_, rfl, by decide⟩

theorem witness_FrameOfMemory :
    ∃ t, Memory.wf full.buf = true ∧ exec (.stf 7 224) full = .next t ∧ storedRange (.stf 7 224) full = (224, 32) ∧ (223 < 224 ∨ 224 + 32 ≤ 223) := ⟨_, by decide +kernel, rfl, rfl, by decide⟩

theorem witness_ValidBitsKept :
    ∃ t, step running = .next t ∧ ∀ e rest, running.sched = e :: rest → resetsBlock e = false := by
  refine ⟨_, rfl, fun e rest h => ?_⟩
  cases h
  rfl

theorem witness_RefusedExactly :
    refusedAccess ⟨8, 0x000#12, .read⟩ full = true ∧ refusedAccess ⟨32, 0x101#12, .read⟩ full = true ∧
    refusedAccess ⟨32, 0x020#12, .read⟩ full = true ∧ refusedAccess ⟨32, 0x0FC#12, .read⟩ full = true ∧
    refusedAccess ⟨32, 0x200#12, .read⟩ full = true ∧ refusedAccess ⟨32, 0x008#12, .write 0#32⟩ full = true ∧
    refusedAccess ⟨32, 0x1FC#12, .read⟩ running = true ∧ refusedAccess ⟨32, 0x004#12, .write 0#32⟩ running = true ∧
    refusedAccess ⟨32, 0x01C#12, .read⟩ running = false ∧ refusedAccess ⟨32, 0x100#12, .read⟩ full = false ∧
    refusedAccess ⟨32, 0x1FC#12, .write 0#32⟩ full = false ∧ refusedAccess ⟨32, 0x004#12, .read⟩ running = false := by decide +kernel

theorem witness_BufWindowBigEndian :
    63 < 64 ∧ Memory.wf full.buf = true ∧ full.busy = false ∧ Memory.wf running.buf = true ∧ running.busy = true := by decide +kernel

theorem witness_CtrlAndIenWrites : (8#32 : Word).getLsbD 3 = true ∧ (7#32 : Word).getLsbD 3 = false := by decide

theorem witness_IssueAndLockOut :
    ready State.reset = true ∧ running.busy = true ∧ (raiseFault .invalidPoint full).err = true := by decide +kernel

theorem witness_RunningCommandUnaffected :
    running.busy = true ∧ resetsBlock (.access ⟨32, 0x018#12, .write 7#32⟩) = false ∧ resetsBlock (.access ⟨32, 0x004#12, .write 8#32⟩) = false := by decide +kernel

theorem witness_AcceptedCommandCompletes :
    running.busy = true ∧ (∀ e ∈ running.sched, resetsBlock e = false) ∧
    { running with sched := [.access ⟨32, 0x008#12, .read⟩, .hardReset] }.busy = true := by decide +kernel

theorem witness_StepKeepsInvariant : ∃ t, BlockInv State.reset ∧ step State.reset = .next t := by
  refine ⟨_, ⟨rfl, ?_, ?_, ?_, ?_, ?_, ?_⟩, rfl⟩
  · decide
  · decide
  · decide
  · decide
  · decide
  · intro u hu
    cases hu

/-- The invariant also holds where a command is running. -/
theorem witness_StepKeepsInvariant_running : ∃ t, BlockInv running ∧ step running = .next t := by
  refine ⟨_, ⟨rfl, ?_, ?_, ?_, ?_, ?_, ?_⟩, rfl⟩
  · decide
  · decide
  · decide
  · decide
  · decide
  · intro u hu
    cases hu

end Sys2Proof.Tests
end

section
/-! SUPPORT. The step, the engine's turn and the host's accesses, one equation for each case (10_state.md R37, R44, R45;
20_memory.md R62, R70, R73), and the obligations that say the same. -/

namespace Sys2Proof.Machine

/-! ### The step and the engine's turn -/

theorem step_of_sched_nil {s : State} (h : s.sched = []) : step s = engineTurn s := by
  unfold step
  rw [h]

theorem step_of_sched_cons {s : State} {e : Event} {rest : List Event} (h : s.sched = e :: rest) :
    step s = runEvent e { s with sched := rest } := by
  unfold step
  rw [h]

/-- Every step is one event: the head of the schedule, the engine's turn when there is none. -/
theorem step_eq_runEvent (s : State) :
    step s = runEvent (s.sched.headD .engine) { s with sched := s.sched.tail } := by
  obtain ⟨f, k, q, buf, cmd, busy, done, err, t, ovr, errcode, errinfo, rlen, ien, utbl, sched, resp⟩ := s
  cases sched <;> rfl

@[simp] theorem runEvent_engine (s : State) : runEvent .engine s = engineTurn s := rfl

@[simp] theorem runEvent_access (x : Access) (s : State) : runEvent (.access x) s = .next (hostAccess x s) := rfl

@[simp] theorem runEvent_hardReset (s : State) : runEvent .hardReset s = .next (resetBlock s) := rfl

theorem engineTurn_idle {s : State} (hb : s.busy = false) : engineTurn s = .next s := by
  rw [engineTurn, hb]
  rfl

theorem engineTurn_decoded {s : State} {i : Instr} (hb : s.busy = true) (hd : decode s.cmd = .ok i) :
    engineTurn s = exec i s := by
  rw [engineTurn, if_pos hb, completeCommand, hd]

theorem engineTurn_illegal {s : State} {e : Illegal} (hb : s.busy = true) (hd : decode s.cmd = .error e) :
    engineTurn s = .next (raiseFault .illegalCommand s) := by
  rw [engineTurn, if_pos hb, completeCommand, hd, finish_error]

/-- Everything the engine's turn can do. -/
theorem engineTurn_cases {s t : State} (h : engineTurn s = .next t) :
    (s.busy = false ∧ t = s) ∨ (s.busy = true ∧ ∃ i, exec i s = .next t) ∨
      (s.busy = true ∧ t = raiseFault .illegalCommand s) := by
  cases hb : s.busy with
  | false =>
    rw [engineTurn_idle hb, Host.Outcome.next.injEq] at h
    exact .inl ⟨rfl, h.symm⟩
  | true =>
    cases hd : decode s.cmd with
    | ok i =>
      rw [engineTurn_decoded hb hd] at h
      exact .inr (.inl ⟨rfl, i, h⟩)
    | error e =>
      rw [engineTurn_illegal hb hd, Host.Outcome.next.injEq] at h
      exact .inr (.inr ⟨rfl, h.symm⟩)

/-- Settles O6: the head of the schedule is the engine's turn, and in a busy block that runs the decoded command. -/
theorem stepRunsDecodedCommand : Obligations.StepRunsDecodedCommand := by
  intro s i hb hd
  refine ⟨fun rest h => ?_, fun h => ?_⟩
  · rw [step_of_sched_cons h, runEvent_engine]
    exact engineTurn_decoded hb hd
  · rw [step_of_sched_nil h, engineTurn_decoded hb hd]

/-- Settles O7: the equations of the step, event by event. -/
theorem stepPerformsOtherEvents : Obligations.StepPerformsOtherEvents := by
  refine ⟨fun s x rest h => ?_, fun s rest h => ?_, fun s rest h hb => ?_, fun s h hb => ?_⟩
  · rw [step_of_sched_cons h, runEvent_access]
  · rw [step_of_sched_cons h, runEvent_hardReset]
  · rw [step_of_sched_cons h, runEvent_engine]
    exact engineTurn_idle hb
  · rw [step_of_sched_nil h, engineTurn_idle hb]

/-! ### Host accesses -/

theorem hostAccess_read {a : BusAddr} {d : Word} {s : State} (h : busRead a s = some d) :
    hostAccess ⟨32, a, .read⟩ s = { s with resp := some (.okData d) } := by
  simp [hostAccess, h]

theorem hostAccess_write {a : BusAddr} {d : Word} {s s' : State} (h : busWrite a d s = some s') :
    hostAccess ⟨32, a, .write d⟩ s = { s' with resp := some .okWrite } := by
  simp [hostAccess, h]

theorem hostAccess_write_refused {a : BusAddr} {d : Word} {s : State} (h : busWrite a d s = none) :
    hostAccess ⟨32, a, .write d⟩ s = refuseAccess s := by
  simp [hostAccess, h]

theorem busWrite_cmd (w : Word) (s : State) :
    busWrite 0x004#12 w s = if s.busy || s.err then none else some (issueWord w s) := rfl

theorem busWrite_ctrl (d : Word) (s : State) : busWrite 0x018#12 d s = some (ctrlWrite d s) := rfl

theorem busWrite_ien (d : Word) (s : State) : busWrite 0x01C#12 d s = some { s with ien := d.setWidth 2 } := rfl

/-- `SRST` makes the other bits of `CTRL` irrelevant (10_state.md R37). -/
theorem ctrlWrite_srst {d : Word} (h : d.getLsbD 3 = true) (s : State) : ctrlWrite d s = resetBlock s := by
  rw [ctrlWrite, if_pos h]

/-- Without `SRST`, each of the three clearing bits of `CTRL` acts on its own fields (10_state.md R37). -/
theorem ctrlWrite_clear {d : Word} (h : d.getLsbD 3 = false) (s : State) :
    ctrlWrite d s = { s with
      err := s.err && !d.getLsbD 0,
      errcode := if d.getLsbD 0 then 0#8 else s.errcode,
      errinfo := if d.getLsbD 0 then 0#32 else s.errinfo,
      done := s.done && !d.getLsbD 1,
      ovr := s.ovr && !d.getLsbD 2 } := by
  rw [ctrlWrite, h]
  cases d.getLsbD 0 <;> cases d.getLsbD 1 <;> cases d.getLsbD 2 <;>
    simp [clearFault, clearDone, clearOvr]

/-- Settles O52: each control register is a row of `readWord` that the state of the block does not switch off. -/
theorem controlRegisterReads : Obligations.ControlRegisterReads := fun _ =>
  ⟨hostAccess_read rfl, hostAccess_read rfl, hostAccess_read rfl, hostAccess_read rfl,
    hostAccess_read rfl, hostAccess_read rfl, hostAccess_read rfl, hostAccess_read rfl⟩

/-- Settles O53: the word is five flags side by side, the lowest last. -/
theorem statusWordAndInterrupt : Obligations.StatusWordAndInterrupt := by
  intro s
  have hlt : (statusWord s).toNat < 32 := by
    rw [statusWord, BitVec.toNat_setWidth]
    exact (Nat.mod_le _ _).trans_lt (BitVec.isLt _)
  have hirq : irq s = true ↔ (s.ien.getLsbD 0 = true ∧ s.done = true) ∨ (s.ien.getLsbD 1 = true ∧ s.err = true) := by
    simp [irq, ieDone, ieErr]
  refine ⟨?_, ?_, ?_, ?_, ?_, hlt, hirq⟩ <;>
    simp only [statusWord, BitVec.getLsbD_setWidth, BitVec.getLsbD_append] <;> simp

/-- Settles O55: `CTRL` by its equation with and without `SRST`; `IEN` keeps the two low bits of the data. -/
theorem ctrlAndIenWrites : Obligations.CtrlAndIenWrites := by
  intro d s
  refine ⟨fun h => ?_, fun h => ?_, d.setWidth 2, busWrite_ien d s, ?_, ?_⟩
  · rw [busWrite_ctrl, ctrlWrite_srst h]
  · rw [busWrite_ctrl, ctrlWrite_clear h]
  · simp
  · simp

/-- Settles O56: `CMD` is the one register whose write asks whether the block is ready. -/
theorem issueAndLockOut : Obligations.IssueAndLockOut := by
  intro w s
  refine ⟨fun h => ?_, fun h => ?_⟩
  · have hw : busWrite 0x004#12 w s = some (issueWord w s) := by
      rw [busWrite_cmd, if_neg (by simpa [ready] using h)]
    exact hostAccess_write hw
  · have hw : busWrite 0x004#12 w s = none := by
      rw [busWrite_cmd, if_pos (by simpa using h)]
    exact hostAccess_write_refused hw

/-! ### Reset -/

/-- Settles O5: both resets are `resetBlock`, whose registers are those of `State.reset`. -/
theorem resetValues : Obligations.ResetValues := by
  intro s
  refine ⟨resetBlock s, runEvent_hardReset s, fun d h => ?_, fun r => ?_, fun r => ?_, fun r => ?_, byteAt_nil,
    rfl, ?_, rfl, rfl, rfl, rfl, rfl, rfl, rfl, rfl, rfl, rfl, ?_⟩
  · rw [busWrite_ctrl, ctrlWrite_srst h]
  · simp [regF, State.reset]
  · simp [regK, State.reset]
  · simp [regQ, State.reset]
  · simp [statusWord, State.reset]
  · simp [irq, State.reset]

end Sys2Proof.Machine
end

section
/-! SUPPORT. What a command leaves unchanged (10_state.md R21 to R45; 60_exceptions.md R240), read off the inversion of `exec`
(`exec_cases`), and the obligations about frames. -/

namespace Sys2Proof.Machine

/-! ### Frames of an effect -/

/-- No effect touches the fault record, the host's side, or `OVR` and `IEN`. -/
theorem Effect.frame {i : Instr} {s s' : State} (h : Effect i s s') :
    s'.errcode = s.errcode ∧ s'.errinfo = s.errinfo ∧ s'.ovr = s.ovr ∧ s'.ien = s.ien ∧
      s'.sched = s.sched ∧ s'.resp = s.resp := by
  cases h <;> exact ⟨rfl, rfl, rfl, rfl, rfl, rfl⟩

/-- An effect writes an `F` register only as the command's destination. -/
theorem Effect.regF_eq {i : Instr} {s s' : State} (h : Effect i s s') {r : FReg} (hr : destF i ≠ some r) :
    regF s' r = regF s r := by
  cases h with
  | field d v hd => rw [regF_setF, if_neg (fun e : d = r => hr (e ▸ hd))]
  | _ => rfl

/-- An effect writes a `K` register only as the command's destination. -/
theorem Effect.regK_eq {i : Instr} {s s' : State} (h : Effect i s s') {r : KReg} (hr : destK i ≠ some r) :
    regK s' r = regK s r := by
  cases h with
  | integer d v hd => rw [regK_setK, if_neg (fun e : d = r => hr (e ▸ hd))]
  | _ => rfl

/-- An effect writes a `Q` register only as the command's destination. -/
theorem Effect.regQ_eq {i : Instr} {s s' : State} (h : Effect i s s') {r : QReg} (hr : destQ i ≠ some r) :
    regQ s' r = regQ s r := by
  cases h with
  | point d v hd => rw [regQ_setQ, if_neg (fun e : d = r => hr (e ▸ hd))]
  | multiple d b k base v hi =>
    subst hi
    rw [regQ_setQ, if_neg (fun e => hr (congrArg some e))]
    rfl
  | _ => rfl

theorem Effect.t_eq {i : Instr} {s s' : State} (h : Effect i s s') (hw : writesT i = false) : s'.t = s.t := by
  cases h with
  | flag v hv => exact absurd hv (by simp [hw])
  | _ => rfl

theorem Effect.rlen_eq {i : Instr} {s s' : State} (h : Effect i s s') (hw : writesRlen i = false) :
    s'.rlen = s.rlen := by
  cases h with
  | string off payload hs hv => exact absurd hv (by simp [hw])
  | _ => rfl

theorem Effect.utbl_eq {i : Instr} {s s' : State} (h : Effect i s s') (hi : ∀ d b k, i ≠ .smul d b k) :
    s'.utbl = s.utbl := by
  cases h with
  | multiple d b k base v he => exact absurd he (hi d b k)
  | _ => rfl

/-! ### The obligations -/

/-- Settles O9: a command ends in `completeOk` of an effect, which leaves the record, or in `raiseFault`. -/
theorem commandCompletesOrFaultsPrecisely : Obligations.CommandCompletesOrFaultsPrecisely := by
  intro i s
  obtain ⟨t, ht⟩ := exec_next i s
  refine ⟨t, ht, ?_⟩
  rcases exec_cases ht with ⟨s', he, rfl⟩ | ⟨c, rfl⟩
  · obtain ⟨-, herr⟩ := he.cmd_err
    obtain ⟨hcode, hinfo, -⟩ := he.frame
    refine ⟨rfl, rfl, fun h0 h1 => ?_, fun _ => ⟨hcode, hinfo⟩⟩
    rw [completeOk_err, herr, h0] at h1
    cases h1
  · exact ⟨rfl, rfl, fun _ _ => ⟨rfl, c, rfl⟩, fun h => by cases h⟩

/-- Settles O47: the effect writes its destination, the fault entry no register. -/
theorem frameOfRegisters : Obligations.FrameOfRegisters := by
  intro i s t h
  rcases exec_cases h with ⟨s', he, rfl⟩ | ⟨c, rfl⟩
  · refine ⟨fun r hr => he.regF_eq hr, fun r hr => he.regK_eq hr, fun r hr => he.regQ_eq hr, fun h0 h1 => ?_⟩
    rw [completeOk_err, he.cmd_err.2, h0] at h1
    cases h1
  · exact ⟨fun _ _ => rfl, fun _ _ => rfl, fun _ _ => rfl, fun _ _ => ⟨rfl, rfl, rfl⟩⟩

/-- Settles O48: each of the fields is written by the effects of its own commands or by none. -/
theorem frameOfStatus : Obligations.FrameOfStatus := by
  intro i s t h
  rcases exec_cases h with ⟨s', he, rfl⟩ | ⟨c, rfl⟩
  · obtain ⟨-, -, hovr, hien, hsched, hresp⟩ := he.frame
    exact ⟨he.t_eq, he.rlen_eq, he.utbl_eq, he.cmd_err.1, hovr, hien, hsched, hresp⟩
  · exact ⟨fun _ => rfl, fun _ => rfl, fun _ => rfl, rfl, rfl, rfl, rfl, rfl⟩

/-! ### Valid bits (10_state.md R23) -/

/-- Every register that holds a value in `s` holds one in `t`. -/
def KeepsValid (s t : State) : Prop :=
  (∀ r : FReg, (regF s r).isSome = true → (regF t r).isSome = true) ∧
  (∀ r : KReg, (regK s r).isSome = true → (regK t r).isSome = true) ∧
  (∀ r : QReg, (regQ s r).isSome = true → (regQ t r).isSome = true)

theorem keepsValid_of_files_eq {s t : State} (hf : t.f = s.f) (hk : t.k = s.k) (hq : t.q = s.q) : KeepsValid s t :=
  ⟨fun r h => regF_congr hf r ▸ h, fun r h => regK_congr hk r ▸ h, fun r h => regQ_congr hq r ▸ h⟩

/-- An effect writes values and never takes one away. -/
theorem Effect.keepsValid {i : Instr} {s s' : State} (he : Effect i s s') : KeepsValid s s' := by
  cases he with
  | field d v => exact ⟨fun r h => by rw [regF_setF]; split <;> simp [h], fun _ h => h, fun _ h => h⟩
  | integer d v => exact ⟨fun _ h => h, fun r h => by rw [regK_setK]; split <;> simp [h], fun _ h => h⟩
  | point d v => exact ⟨fun _ h => h, fun _ h => h, fun r h => by rw [regQ_setQ]; split <;> simp [h]⟩
  | multiple d b k base v =>
    refine ⟨fun _ h => h, fun _ h => h, fun r h => ?_⟩
    rw [regQ_setQ]
    split
    · rfl
    · exact h
  | _ => exact ⟨fun _ h => h, fun _ h => h, fun _ h => h⟩

theorem engineTurn_keepsValid {s t : State} (h : engineTurn s = .next t) : KeepsValid s t := by
  rcases engineTurn_cases h with ⟨-, rfl⟩ | ⟨-, i, hi⟩ | ⟨-, rfl⟩
  · exact keepsValid_of_files_eq rfl rfl rfl
  · rcases exec_cases hi with ⟨s', he, rfl⟩ | ⟨c, rfl⟩
    · exact he.keepsValid
    · exact keepsValid_of_files_eq rfl rfl rfl
  · exact keepsValid_of_files_eq rfl rfl rfl

/-- A host access leaves the register files as they are, unless it resets the block. -/
theorem hostAccess_keepsValid {x : Access} {s : State} (hx : resetsBlock (.access x) = false) :
    KeepsValid s (hostAccess x s) := by
  rcases hostAccess_cases x s with h | ⟨-, -, d, -, h⟩ | ⟨hw, d, s', hk, hb, h⟩
  · rw [h]; exact keepsValid_of_files_eq rfl rfl rfl
  · rw [h]; exact keepsValid_of_files_eq rfl rfl rfl
  · rw [h]
    rcases busWrite_cases hb with ⟨-, -, -, rfl⟩ | ⟨ha, rfl⟩ | ⟨-, rfl⟩ | ⟨-, -, -, -, rfl⟩
    · exact keepsValid_of_files_eq rfl rfl rfl
    · have hd : d.getLsbD 3 = false := by
        obtain ⟨width, addr, kind⟩ := x
        have haddr : addr = 0x018#12 := BitVec.eq_of_toNat_eq ha
        obtain rfl : kind = .write d := hk
        simpa [resetsBlock, show width = 32 from hw, haddr] using hx
      rw [ctrlWrite_clear hd]
      exact keepsValid_of_files_eq rfl rfl rfl
    · exact keepsValid_of_files_eq rfl rfl rfl
    · exact keepsValid_of_files_eq rfl rfl rfl

/-- Settles O50: event by event; the hard reset is excluded by the premise. -/
theorem validBitsKept : Obligations.ValidBitsKept := by
  intro s t h hreset
  have hev : resetsBlock (s.sched.headD .engine) = false := by
    cases hs : s.sched with
    | nil => rfl
    | cons e rest => exact hreset e rest hs
  rw [step_eq_runEvent] at h
  generalize s.sched.headD .engine = e at h hev
  cases e with
  | access x =>
    rw [runEvent_access, Host.Outcome.next.injEq] at h
    rw [← h]
    exact hostAccess_keepsValid (s := { s with sched := s.sched.tail }) hev
  | hardReset => cases hev
  | engine => exact engineTurn_keepsValid (s := { s with sched := s.sched.tail }) h

end Sys2Proof.Machine
end

section
/-! SUPPORT. How long a Base58 string can be (43_base58check.md R193): a payload of at most 64 bytes has at most 88 characters, which is
what keeps `RLEN` in its range (10_state.md R36). -/

namespace Sys2Proof.Machine

/-- A number below `58 ^ k` has at most `k` digits. -/
theorem digitLoop_length_le {v k : Nat} (h : v < 58 ^ k) (n : Nat) : (digitLoop n v).length ≤ k := by
  induction n generalizing v k with
  | zero => exact Nat.zero_le k
  | succ n ih =>
    rw [digitLoop]
    split
    · exact Nat.zero_le k
    · cases k with
      | zero => simp only [pow_zero] at h; omega
      | succ k =>
        have hd : v / 58 < 58 ^ k := Nat.div_lt_of_lt_mul (by rw [pow_succ] at h; omega)
        exact Nat.succ_le_succ (ih hd)

/-- Leading zero bytes add nothing to the value. -/
theorem be_lt_of_leadingZeros (bs : List Byte) : be bs < 256 ^ (bs.length - leadingZeros bs) := by
  induction bs with
  | nil => exact Nat.one_pos
  | cons b rest ih =>
    by_cases hb : b = 0x00#8
    · simpa [be, leadingZeros, hb] using ih
    · have hz : leadingZeros (b :: rest) = 0 := by rw [leadingZeros, if_neg hb]
      rw [hz]
      exact be_lt (b :: rest)

theorem leadingZeros_le (bs : List Byte) : leadingZeros bs ≤ bs.length := by
  induction bs with
  | nil => exact le_rfl
  | cons b rest ih =>
    rw [leadingZeros, List.length_cons]
    split <;> omega

/-- `n` bytes need at most `n + 24` digits while `n ≤ 64`: the inequality at 64 bytes, divided by the missing bytes. -/
theorem pow_256_le_pow_58 {n : Nat} (h : n ≤ 64) : 256 ^ n ≤ 58 ^ (n + 24) := by
  have top : (256 : Nat) ^ 64 ≤ 58 ^ 88 := by norm_num
  have hpos : 0 < 256 ^ (64 - n) := by positivity
  refine Nat.le_of_mul_le_mul_right (c := 256 ^ (64 - n)) ?_ hpos
  calc 256 ^ n * 256 ^ (64 - n) = 256 ^ 64 := by rw [← pow_add, Nat.add_sub_cancel' h]
    _ ≤ 58 ^ 88 := top
    _ = 58 ^ (n + 24) * 58 ^ (64 - n) := by rw [← pow_add]; congr 1; omega
    _ ≤ 58 ^ (n + 24) * 256 ^ (64 - n) := Nat.mul_le_mul_left _ (Nat.pow_le_pow_left (by norm_num) _)

/-- A payload within the converter's limit gives at most 88 characters (43_base58check.md R193). -/
theorem b58Encode_length_le {payload : List Byte} (h : payload.length ≤ Config.lMax) :
    (b58Encode payload).length ≤ 88 := by
  have hl : payload.length ≤ 64 := h
  have hz := leadingZeros_le payload
  have hd : (digits (be payload)).length ≤ payload.length - leadingZeros payload + 24 :=
    digitLoop_length_le ((be_lt_of_leadingZeros payload).trans_le (pow_256_le_pow_58 (by omega))) _
  simp only [b58Encode, List.length_append, List.length_replicate, List.length_map, List.length_reverse]
  omega

end Sys2Proof.Machine
end

section
/-! SUPPORT. Which faults a command can raise (60_exceptions.md R244): every check of a command answers a value or one of the faults of
its row. -/

namespace Sys2Proof.Machine

/-- A result is a value that satisfies `Q` or a fault of the list `l`. -/
def Answers {α : Type} (l : List FaultCode) (Q : α → Prop) : Res α → Prop
  | .ok a => Q a
  | .error c => c ∈ l

section
variable {α β : Type} {l : List FaultCode} {Q : α → Prop}

/-- A chain of checks, each within the list. -/
theorem Answers.bind {x : Res α} {f : α → Res β} {R : β → Prop} (hx : Answers l Q x)
    (hf : ∀ a, Q a → Answers l R (f a)) : Answers l R (x.bind f) := by
  cases x with
  | ok a => exact hf a hx
  | error c => exact hx

/-- A check with one fault, from the lemma that lists its answers. -/
theorem answers_of_cases {x : Res α} {c : FaultCode} (h : (∃ a, x = .ok a) ∨ x = .error c) (hc : c ∈ l := by simp [allowedFaults]) :
    Answers l (fun _ => True) x := by
  rcases h with ⟨a, rfl⟩ | rfl
  · trivial
  · exact hc

theorem answers_need (o : Option α) (hc : .uninitRegister ∈ l := by simp [allowedFaults]) : Answers l (fun _ => True) (need o) := by
  cases o with
  | some v => trivial
  | none => exact hc

theorem answers_memRead (m : Memory) (off n : Nat) (hc : .bufferRange ∈ l := by simp [allowedFaults]) :
    Answers l (fun _ => True) (memRead m off n) := by
  rcases memRead_cases m off n with ⟨-, h⟩ | ⟨-, h⟩ <;> rw [h]
  · trivial
  · exact hc

theorem answers_feOfNat (v : Nat) (hc : .operandRange ∈ l := by simp [allowedFaults]) : Answers l (fun _ => True) (feOfNat v) := by
  rcases feOfNat_cases v with ⟨_, h⟩ | ⟨-, h⟩ <;> rw [h]
  · trivial
  · exact hc

theorem answers_scalarMulWith (k : Scalar) (table : List Point) (hs : .invalidScalar ∈ l := by simp [allowedFaults])
    (hp : .invalidPoint ∈ l := by simp [allowedFaults]) :
    Answers l (fun _ => True) (scalarMulWith k table) := by
  rcases scalarMulWith_cases k table with ⟨r, h⟩ | h | h <;> rw [h]
  · trivial
  · exact hs
  · exact hp

theorem answers_storeBytes (s : State) (off : Nat) (bs : List Byte) (hc : .bufferRange ∈ l := by simp [allowedFaults]) :
    Answers l (fun s' => s'.err = s.err) (storeBytes s off bs) := by
  cases h : storeBytes s off bs with
  | ok s' =>
    obtain ⟨-, rfl⟩ := storeBytes_cases h
    rfl
  | error c =>
    by_cases hr : off + bs.length ≤ Config.bufSize
    · rw [storeBytes_ok hr] at h
      cases h
    · rw [storeBytes_error (by omega)] at h
      cases h
      exact hc

end

/-! ### The commands -/

/-- A command that computes its next state within the list of faults. -/
def FaultsWithin (l : List FaultCode) (s : State) (o : Out) : Prop :=
  ∃ r, o = finish r s ∧ Answers l (fun s' : State => s'.err = s.err) r

theorem fieldBinary_faultsWithin {l : List FaultCode} {op : Fe → Fe → Res Fe} (d a b : FReg) (s : State)
    (hop : ∀ x y, Answers l (fun _ => True) (op x y)) (hu : .uninitRegister ∈ l := by simp [allowedFaults]) :
    FaultsWithin l s (fieldBinary op d a b s) :=
  ⟨_, rfl, (answers_need _ hu).bind fun x _ => (answers_need _ hu).bind fun y _ => (hop x y).bind fun _ _ => rfl⟩

theorem base58Command_faultsWithin {l : List FaultCode} (limit : Nat) (conv : List Byte → List Byte) (dst src len : Nat)
    (s : State) (hb : .bufferRange ∈ l := by simp [allowedFaults]) : FaultsWithin l s (base58Command limit conv dst src len s) := by
  refine ⟨_, rfl, ?_⟩
  split
  · exact hb
  · exact (answers_memRead _ _ _ hb).bind fun _ _ => (answers_storeBytes s _ _ hb).bind fun _ h => h

/-- Every command's faults are those of its row (60_exceptions.md R244). -/
theorem exec_faultsWithin (i : Instr) (s : State) : FaultsWithin (allowedFaults i) s (exec i s) := by
  cases i with
  | nop => exact ⟨.ok s, rfl, rfl⟩
  | fadd d a b => exact fieldBinary_faultsWithin d a b s fun _ _ => trivial
  | fsub d a b => exact fieldBinary_faultsWithin d a b s fun _ _ => trivial
  | fmul d a b => exact fieldBinary_faultsWithin d a b s fun _ _ => trivial
  | fdiv d a b => exact fieldBinary_faultsWithin d a b s fun x y => answers_of_cases (feDiv_cases x y)
  | fpow d a e => exact ⟨_, rfl, (answers_need _).bind fun _ _ => (answers_need _).bind fun _ _ => rfl⟩
  | finv d a => exact ⟨_, rfl, (answers_need _).bind fun x _ => (answers_of_cases (feInv_cases x)).bind fun _ _ => rfl⟩
  | feq a b => exact ⟨_, rfl, (answers_need _).bind fun _ _ => (answers_need _).bind fun _ _ => rfl⟩
  | padd d a b =>
    exact ⟨_, rfl, (answers_need _).bind fun p _ => (answers_need _).bind fun q _ =>
      (answers_of_cases (ptAdd_cases p q)).bind fun _ _ => rfl⟩
  | pdbl d a => exact ⟨_, rfl, (answers_need _).bind fun _ _ => rfl⟩
  | smul d b k =>
    exact ⟨_, rfl, (answers_need _).bind fun _ _ => (answers_need _).bind fun n _ =>
      (answers_scalarMulWith n _).bind fun _ _ => rfl⟩
  | peq a b => exact ⟨_, rfl, (answers_need _).bind fun _ _ => (answers_need _).bind fun _ _ => rfl⟩
  | ldg d => exact ⟨.ok (setQ s d generator), rfl, rfl⟩
  | ldf r off => exact ⟨_, rfl, (answers_memRead _ _ _).bind fun bs _ => (answers_feOfNat (be bs)).bind fun _ _ => rfl⟩
  | stf r off => exact ⟨_, rfl, (answers_need _).bind fun _ _ => answers_storeBytes s _ _⟩
  | ldk r off => exact ⟨_, rfl, (answers_memRead _ _ _).bind fun _ _ => rfl⟩
  | stk r off => exact ⟨_, rfl, (answers_need _).bind fun _ _ => answers_storeBytes s _ _⟩
  | ldp r off =>
    exact ⟨_, rfl, (answers_memRead _ _ _).bind fun bs _ => (answers_of_cases (pointOfBytes_cases bs)).bind fun _ _ => rfl⟩
  | stp r off => exact ⟨_, rfl, (answers_need _).bind fun _ _ => answers_storeBytes s _ _⟩
  | b58enc dst src len => exact base58Command_faultsWithin _ _ dst src len s
  | b58chk dst src len => exact base58Command_faultsWithin _ _ dst src len s

/-- A command that sets `ERR` entered a fault of its own row. -/
theorem exec_fault_allowed {i : Instr} {s t : State} (h0 : s.err = false) (h : exec i s = .next t) (h1 : t.err = true) :
    ∃ c ∈ allowedFaults i, t = raiseFault c s := by
  obtain ⟨r, hr, ha⟩ := exec_faultsWithin i s
  rw [hr] at h
  rcases finish_cases h with ⟨s', rfl, rfl⟩ | ⟨c, rfl, rfl⟩
  · have hs : s'.err = s.err := ha
    rw [completeOk_err, hs, h0] at h1
    cases h1
  · exact ⟨c, ha, rfl⟩

/-- No row of the table names a code that no command raises (60_exceptions.md R232, R235). -/
theorem not_mem_allowedFaults (i : Instr) : .domainMismatch ∉ allowedFaults i ∧ .ioFailure ∉ allowedFaults i := by
  cases i <;> simp [allowedFaults]

theorem codeByte_mem_raisedCodes {i : Instr} {c : FaultCode} (h : c ∈ allowedFaults i) : codeByte c ∈ raisedCodes := by
  cases c with
  | domainMismatch => exact absurd h (not_mem_allowedFaults i).1
  | ioFailure => exact absurd h (not_mem_allowedFaults i).2
  | _ => decide

end Sys2Proof.Machine
end

section
/-! SUPPORT. The block's invariant holds at reset and is kept by every host access, every command and so by every step
(10_state.md R33 to R36, R41, R47; 60_exceptions.md R243). -/

namespace Sys2Proof.Machine

/-! ### Reset -/

/-- Settles O59: every part is about a field that reset sets to zero. -/
theorem invariantAtReset : Obligations.InvariantAtReset where
  buf_wf := wf_reset
  busy_not_err := fun h => by cases h
  busy_not_done := fun h => by cases h
  clear_record := fun _ => ⟨rfl, rfl⟩
  fault_record := fun h => by cases h
  rlen_le := Nat.zero_le 88
  cache := fun u hu => by cases hu

theorem blockInv_resetBlock (s : State) : BlockInv (resetBlock s) := { invariantAtReset with }

/-! ### The host's side -/

section
variable {s : State}

theorem BlockInv.with_sched (h : BlockInv s) (l : List Event) : BlockInv { s with sched := l } := { h with }

theorem BlockInv.with_resp (h : BlockInv s) (r : Option Response) : BlockInv { s with resp := r } := { h with }

theorem BlockInv.refuseAccess (h : BlockInv s) : BlockInv (refuseAccess s) := { h with }

theorem BlockInv.clearFault (h : BlockInv s) : BlockInv (clearFault s) :=
  { h with
    busy_not_err := fun _ => rfl
    clear_record := fun _ => ⟨rfl, rfl⟩
    fault_record := fun he => by cases he }

theorem BlockInv.clearDone (h : BlockInv s) : BlockInv (clearDone s) := { h with busy_not_done := fun _ => rfl }

theorem BlockInv.clearOvr (h : BlockInv s) : BlockInv (clearOvr s) := { h with }

/-- The word issued replaces the one a fault record would name, so an issue needs `ERR = 0`. -/
theorem BlockInv.issueWord (h : BlockInv s) (w : Word) (he : s.err = false) : BlockInv (issueWord w s) :=
  { h with
    busy_not_err := fun _ => he
    busy_not_done := fun _ => rfl
    fault_record := fun h1 => by rw [issueWord_err, he] at h1; cases h1 }

theorem BlockInv.ctrlWrite (h : BlockInv s) (d : Word) : BlockInv (ctrlWrite d s) := by
  have keeps : ∀ {c : Bool} {u v : State}, BlockInv u → BlockInv v → BlockInv (if c then u else v) := by
    intro c u v hu hv
    cases c
    · exact hv
    · exact hu
  have h1 := keeps (c := d.getLsbD 0) h.clearFault h
  have h2 := keeps (c := d.getLsbD 1) h1.clearDone h1
  exact keeps (blockInv_resetBlock s) (keeps h2.clearOvr h2)

theorem BlockInv.busWrite (h : BlockInv s) {a : BusAddr} {d : Word} {s' : State} (hw : busWrite a d s = some s') :
    BlockInv s' := by
  rcases busWrite_cases hw with ⟨-, -, he, rfl⟩ | ⟨-, rfl⟩ | ⟨-, rfl⟩ | ⟨ha, hlo, hhi, -, rfl⟩
  · exact h.issueWord d he
  · exact h.ctrlWrite d
  · exact { h with }
  · have hin : bufOffset a + 4 ≤ Config.bufSize := by
      unfold bufOffset Config.bufSize
      omega
    exact { h with buf_wf := wf_setBufWord h.buf_wf hin d }

theorem BlockInv.hostAccess (h : BlockInv s) (x : Access) : BlockInv (hostAccess x s) := by
  rcases hostAccess_cases x s with e | ⟨-, -, d, -, e⟩ | ⟨-, d, s', -, hw, e⟩ <;> rw [e]
  · exact h.refuseAccess
  · exact h.with_resp _
  · exact (h.busWrite hw).with_resp _

/-! ### The engine's side -/

theorem BlockInv.completeOk (h : BlockInv s) : BlockInv (completeOk s) :=
  { h with
    busy_not_err := fun hb => by cases hb
    busy_not_done := fun hb => by cases hb }

theorem BlockInv.raiseFault (h : BlockInv s) {c : FaultCode} (hc : codeByte c ∈ raisedCodes) : BlockInv (raiseFault c s) :=
  { h with
    busy_not_err := fun hb => by cases hb
    busy_not_done := fun hb => by cases hb
    clear_record := fun he => by cases he
    fault_record := fun _ => ⟨hc, rfl⟩ }

/-- After SMUL the cache is as before or the table of a base point that is not the generator (10_state.md R41). -/
theorem CacheCoherent.smulCache (h : CacheCoherent s) (base : Point) :
    CacheCoherent { s with utbl := smulCache s.utbl base } := by
  by_cases hb : base = generator ∨ utblHit s.utbl base = true
  · rw [Machine.smulCache, if_pos hb]
    exact h
  · rw [Machine.smulCache, if_neg hb]
    intro u hu
    cases hu
    exact ⟨rfl, fun hg => hb (.inl hg)⟩

/-- Every effect of a command keeps the invariant: a store stays inside `BUF`, a string has at most 88 characters, SMUL rebuilds the
cache whole. -/
theorem BlockInv.effect (h : BlockInv s) {i : Instr} {s' : State} (he : Effect i s s') : BlockInv s' := by
  cases he with
  | nothing => exact h
  | field d v => exact { h with }
  | integer d v => exact { h with }
  | point d v => exact { h with }
  | multiple d b k base v => exact { h with cache := h.cache.smulCache base }
  | flag v => exact { h with }
  | bytes off bs hs hrange hin => exact { h with buf_wf := wf_setBytes h.buf_wf hin }
  | string off payload hs hr hrange hin hlen =>
    refine { h with buf_wf := wf_setBytes h.buf_wf hin, rlen_le := ?_ }
    rw [BitVec.toNat_ofNat]
    exact (Nat.mod_le _ _).trans (b58Encode_length_le hlen)

theorem BlockInv.exec (h : BlockInv s) (he : s.err = false) {i : Instr} {t : State} (hx : exec i s = .next t) :
    BlockInv t := by
  rcases exec_cases hx with ⟨s', hs', rfl⟩ | ⟨c, rfl⟩
  · exact (h.effect hs').completeOk
  · obtain ⟨c', hc, e⟩ := exec_fault_allowed he hx rfl
    rw [e]
    exact h.raiseFault (codeByte_mem_raisedCodes hc)

theorem BlockInv.engineTurn (h : BlockInv s) {t : State} (ht : engineTurn s = .next t) : BlockInv t := by
  rcases engineTurn_cases ht with ⟨-, rfl⟩ | ⟨hb, i, hx⟩ | ⟨-, rfl⟩
  · exact h
  · exact h.exec (h.busy_not_err hb) hx
  · exact h.raiseFault (by decide)

theorem BlockInv.runEvent (h : BlockInv s) {e : Event} {t : State} (ht : runEvent e s = .next t) : BlockInv t := by
  cases e with
  | access x => cases ht; exact h.hostAccess x
  | hardReset => cases ht; exact blockInv_resetBlock s
  | engine => exact h.engineTurn ht

end

/-- Settles O60: a step is one event, run on the state with another schedule. -/
theorem stepKeepsInvariant : Obligations.StepKeepsInvariant := by
  intro s t h hstep
  rw [step_eq_runEvent] at hstep
  exact (h.with_sched _).runEvent hstep

end Sys2Proof.Machine
end

section
/-! SUPPORT. The cache is transparent (10_state.md R41, R42; 42_scalar_mul.md R177): whatever happens in a state happens in the state
with its cache hidden, and the results are equal when the cache is hidden again. -/

namespace Sys2Proof.Machine

/-- An outcome with the cache of its next state hidden. -/
def hideOut : Out → Out
  | .next s => .next (hideCache s)
  | .fault r => .fault r
  | .refused r => .refused r

@[simp] theorem hideOut_next (s : State) : hideOut (.next s) = .next (hideCache s) := rfl

theorem cacheCoherent_hideCache (s : State) : CacheCoherent (hideCache s) := fun _ hu => by cases hu

/-! ### Commands -/

/-- The two completions of one chain of checks agree when its rest does: the checks do not read the cache, so both states answer `x`. -/
theorem hideOut_finish_bind {α : Type} {x : Res α} {f g : α → Res State} {s : State}
    (h : ∀ a, hideOut (finish (f a) (hideCache s)) = hideOut (finish (g a) s)) :
    hideOut (finish (x.bind f) (hideCache s)) = hideOut (finish (x.bind g) s) := by
  cases x with
  | ok a => exact h a
  | error c => rfl

theorem hideOut_storeBytes (s : State) (off : Nat) (bs : List Byte) :
    hideOut (finish (storeBytes (hideCache s) off bs) (hideCache s)) = hideOut (finish (storeBytes s off bs) s) :=
  hideOut_finish_bind fun _ => rfl

theorem hideOut_fieldBinary (op : Fe → Fe → Res Fe) (d a b : FReg) (s : State) :
    hideOut (fieldBinary op d a b (hideCache s)) = hideOut (fieldBinary op d a b s) :=
  hideOut_finish_bind fun _ => hideOut_finish_bind fun _ => hideOut_finish_bind fun _ => rfl

theorem hideOut_base58Command (limit : Nat) (conv : List Byte → List Byte) (dst src len : Nat) (s : State) :
    hideOut (base58Command limit conv dst src len (hideCache s)) = hideOut (base58Command limit conv dst src len s) := by
  unfold base58Command
  split
  · rfl
  · refine hideOut_finish_bind fun payload => ?_
    rcases Nat.lt_or_ge Config.bufSize (dst + (conv payload).length) with hr | hr
    · rw [storeBytes_error hr, storeBytes_error hr]
      rfl
    · rw [storeBytes_ok hr, storeBytes_ok hr]
      rfl

/-- With a coherent cache SMUL scans the table of its base point, wherever it takes it from (10_state.md R41). -/
theorem smulTable_eq_tbl {s : State} (h : CacheCoherent s) (base : Point) : smulTable s.utbl base = tbl base := by
  unfold smulTable
  split
  · rename_i hg
    rw [hg]
  · split
    · rename_i u hu
      split
      · rename_i hkey
        rw [(h u hu).1, of_decide_eq_true hkey]
      · rfl
    · rfl

theorem hideOut_execSmul {s : State} (h : CacheCoherent s) (d b : QReg) (k : KReg) :
    hideOut (execSmul d b k (hideCache s)) = hideOut (execSmul d b k s) := by
  refine hideOut_finish_bind fun base => hideOut_finish_bind fun n => ?_
  rw [smulTable_eq_tbl h, smulTable_eq_tbl (cacheCoherent_hideCache s)]
  exact hideOut_finish_bind fun _ => rfl

/-- No command shows the cache. -/
theorem hideOut_exec {s : State} (h : CacheCoherent s) (i : Instr) :
    hideOut (exec i (hideCache s)) = hideOut (exec i s) := by
  cases i with
  | nop => rfl
  | fadd d a b => exact hideOut_fieldBinary _ d a b s
  | fsub d a b => exact hideOut_fieldBinary _ d a b s
  | fmul d a b => exact hideOut_fieldBinary _ d a b s
  | fdiv d a b => exact hideOut_fieldBinary _ d a b s
  | fpow d a e => exact hideOut_finish_bind fun _ => hideOut_finish_bind fun _ => rfl
  | finv d a => exact hideOut_finish_bind fun _ => hideOut_finish_bind fun _ => rfl
  | feq a b => exact hideOut_finish_bind fun _ => hideOut_finish_bind fun _ => rfl
  | padd d a b => exact hideOut_finish_bind fun _ => hideOut_finish_bind fun _ => hideOut_finish_bind fun _ => rfl
  | pdbl d a => exact hideOut_finish_bind fun _ => rfl
  | smul d b k => exact hideOut_execSmul h d b k
  | peq a b => exact hideOut_finish_bind fun _ => hideOut_finish_bind fun _ => rfl
  | ldg d => rfl
  | ldf r off => exact hideOut_finish_bind fun _ => hideOut_finish_bind fun _ => rfl
  | stf r off => exact hideOut_finish_bind fun v => hideOut_storeBytes s off (bytes32 v.val)
  | ldk r off => exact hideOut_finish_bind fun _ => rfl
  | stk r off => exact hideOut_finish_bind fun v => hideOut_storeBytes s off (bytes32 v.toNat)
  | ldp r off => exact hideOut_finish_bind fun _ => hideOut_finish_bind fun _ => rfl
  | stp r off => exact hideOut_finish_bind fun p => hideOut_storeBytes s off (pointBytes p)
  | b58enc dst src len => exact hideOut_base58Command _ _ dst src len s
  | b58chk dst src len => exact hideOut_base58Command _ _ dst src len s

theorem hideOut_engineTurn {s : State} (h : CacheCoherent s) :
    hideOut (engineTurn (hideCache s)) = hideOut (engineTurn s) := by
  cases hb : s.busy with
  | false => rw [engineTurn_idle hb, engineTurn_idle (s := hideCache s) hb]; rfl
  | true =>
    cases hd : decode s.cmd with
    | ok i =>
      rw [engineTurn_decoded hb hd, engineTurn_decoded (s := hideCache s) hb hd]
      exact hideOut_exec h i
    | error e => rw [engineTurn_illegal hb hd, engineTurn_illegal (s := hideCache s) hb hd]; rfl

/-! ### Host accesses -/

theorem ctrlWrite_hideCache (d : Word) (s : State) : ctrlWrite d (hideCache s) = hideCache (ctrlWrite d s) := by
  cases h : d.getLsbD 3 with
  | true => rw [ctrlWrite_srst h, ctrlWrite_srst h]; rfl
  | false => rw [ctrlWrite_clear h, ctrlWrite_clear h]; rfl

/-- A write does to the visible state what it does to the whole. -/
theorem busWrite_hideCache (a : BusAddr) (d : Word) (s : State) :
    busWrite a d (hideCache s) = (busWrite a d s).map hideCache := by
  unfold busWrite writeWord
  split
  · split
    · rw [apply_ite (Option.map hideCache)]
      rfl
    · exact congrArg some (ctrlWrite_hideCache d s)
    · rfl
    · rw [apply_ite (Option.map hideCache)]
      rfl
  · rfl

/-- No host access reads or writes the cache, but that a reset clears it (10_state.md R42). -/
theorem hostAccess_hideCache (x : Access) (s : State) : hostAccess x (hideCache s) = hideCache (hostAccess x s) := by
  obtain ⟨width, addr, kind⟩ := x
  unfold hostAccess
  split
  · rfl
  · cases kind with
    | read =>
      have hr : busRead addr (hideCache s) = busRead addr s := rfl
      simp only [hr]
      split <;> rfl
    | write d =>
      simp only [busWrite_hideCache]
      cases busWrite addr d s <;> rfl

/-! ### The step -/

theorem hideOut_runEvent {s : State} (h : CacheCoherent s) (e : Event) :
    hideOut (runEvent e (hideCache s)) = hideOut (runEvent e s) := by
  cases e with
  | access x => simp only [runEvent_access, hideOut_next, hostAccess_hideCache]; rfl
  | hardReset => rfl
  | engine => exact hideOut_engineTurn h

theorem hideOut_step {s : State} (h : CacheCoherent s) : hideOut (step (hideCache s)) = hideOut (step s) := by
  rw [step_eq_runEvent, step_eq_runEvent]
  exact hideOut_runEvent (s := { s with sched := s.sched.tail }) h _

/-- Settles O33: both steps agree with the step of the one state in which the cache is hidden. -/
theorem cacheIsTransparent : Obligations.CacheIsTransparent := by
  intro s t hs ht hst
  obtain ⟨s', hs'⟩ := step_next s
  obtain ⟨t', ht'⟩ := step_next t
  have hidden : hideOut (step s) = hideOut (step t) := by
    rw [← hideOut_step hs, ← hideOut_step ht, show hideCache s = hideCache t from hst]
  rw [hs', ht', hideOut_next, hideOut_next, Host.Outcome.next.injEq] at hidden
  exact ⟨s', t', hs', ht', hidden⟩

end Sys2Proof.Machine
end

section
/-! SUPPORT. What a command stores leaves the rest of `BUF` as it was (20_memory.md R66), read off the inversion of `exec`. -/

namespace Sys2Proof.Machine

/-- A command that stores nothing computes a state with `BUF` as it was. -/
theorem Effect.buf_eq {i : Instr} {s s' : State} (h : Effect i s s') (hs : stores i = false) : s'.buf = s.buf := by
  cases h with
  | bytes off bs hst => exact absurd hst (by simp [hs])
  | string off payload hst => exact absurd hst (by simp [hs])
  | _ => rfl

/-- An effect writes a byte of `BUF` only inside the command's own range. -/
theorem Effect.byteAt_of_outside {i : Instr} {s s' : State} (h : Effect i s s') (hwf : Memory.wf s.buf = true)
    {off n : Nat} (hrange : storedRange i s = (off, n)) {a : Nat} (ha : a < off ∨ off + n ≤ a) :
    byteAt s'.buf a = byteAt s.buf a := by
  cases h with
  | bytes off' bs hst hown hin =>
    obtain ⟨rfl, rfl⟩ := Prod.mk.inj (hrange.symm.trans hown)
    exact byteAt_setBytes_of_outside hwf hin ha
  | string off' payload hst hrlen hown hin =>
    obtain ⟨rfl, rfl⟩ := Prod.mk.inj (hrange.symm.trans hown)
    exact byteAt_setBytes_of_outside hwf hin ha
  | _ => rfl

/-- Settles O49: the effect stores inside its range or nothing, the fault entry nothing. -/
theorem frameOfMemory : Obligations.FrameOfMemory := by
  intro i s t hwf h
  rcases exec_cases h with ⟨s', he, rfl⟩ | ⟨c, rfl⟩
  · rw [completeOk_buf]
    exact ⟨fun hs a => by rw [he.buf_eq hs], fun off n hrange a ha => he.byteAt_of_outside hwf hrange ha⟩
  · exact ⟨fun _ _ => rfl, fun _ _ _ _ _ => rfl⟩

end Sys2Proof.Machine
end

section
/-! SUPPORT. Which host accesses are refused (20_memory.md R64, R70), the `BUF` window word by word (R63), and what an access can do
while a command runs (R71, R72). -/

namespace Sys2Proof.Machine

/-! ### The `BUF` window -/

theorem bufOffset_of_toNat {a : BusAddr} {n : Nat} (h : a.toNat = 0x100 + n) : bufOffset a = n := by
  unfold bufOffset
  omega

section
variable {a : BusAddr} (ha : a.toNat % 4 = 0) (hlo : 0x100 ≤ a.toNat) (hhi : a.toNat < 0x200)
include ha hlo hhi

/-- A read of the window answers the word there, unless a command runs (20_memory.md R63, R64). -/
theorem busRead_window (s : State) :
    busRead a s = if s.busy then none else some (bufWord s.buf (bufOffset a)) := by
  rw [busRead, if_pos (by simp [aligned, ha]), readWord]
  split
  case h_9 => cases s.busy <;> simp [inBufWindow, hlo, hhi]
  all_goals omega

/-- A write of the window stores the word there, unless a command runs (20_memory.md R63, R64). -/
theorem busWrite_window (d : Word) (s : State) :
    busWrite a d s = if s.busy then none else some { s with buf := setBufWord s.buf (bufOffset a) d } := by
  rw [busWrite, if_pos (by simp [aligned, ha]), writeWord]
  split
  case h_4 => cases s.busy <;> simp [inBufWindow, hlo, hhi]
  all_goals omega

end

/-- Four bytes of `BUF` as one big-endian number (20_memory.md R63). -/
theorem be_bytesAt_four (m : Memory) (off : Nat) :
    be (bytesAt m off 4) = (byteAt m off).toNat * 2 ^ 24 + (byteAt m (off + 1)).toNat * 2 ^ 16 +
      (byteAt m (off + 2)).toNat * 2 ^ 8 + (byteAt m (off + 3)).toNat := by
  simp [bytesAt, be, Nat.add_assoc]

theorem bufWord_toNat (m : Memory) (off : Nat) : (bufWord m off).toNat = be (bytesAt m off 4) := by
  have hlt : be (bytesAt m off 4) < 2 ^ 32 := (be_lt _).trans_eq (by rw [bytesAt_length]; rfl)
  rw [bufWord, BitVec.toNat_ofNat, Nat.mod_eq_of_lt hlt]

/-- The word stored is the word read back. -/
theorem be_bytesAt_setBufWord {m : Memory} (h : Memory.wf m = true) {off : Nat} (hi : off + 4 ≤ Config.bufSize) (d : Word) :
    be (bytesAt (setBufWord m off d) off 4) = d.toNat := by
  have hback : bytesAt (setBufWord m off d) off 4 = beBytes 4 d.toNat := by
    simpa [setBufWord] using bytesAt_setBytes (bs := beBytes 4 d.toNat) h (by simpa using hi)
  rw [hback, be_beBytes]
  exact Nat.mod_eq_of_lt d.isLt

theorem byteAt_setBufWord_of_outside {m : Memory} (h : Memory.wf m = true) {off : Nat} (hi : off + 4 ≤ Config.bufSize)
    (d : Word) {j : Nat} (hj : j < off ∨ off + 4 ≤ j) : byteAt (setBufWord m off d) j = byteAt m j :=
  byteAt_setBytes_of_outside h (by simpa using hi) (by simpa using hj)

/-! ### Refused accesses -/

theorem hostAccess_read_refused {a : BusAddr} {s : State} (h : busRead a s = none) :
    hostAccess ⟨32, a, .read⟩ s = refuseAccess s := by
  simp [hostAccess, h]

/-- R70 for a 32-bit read: its alignment, a reserved address, the window while a command runs. -/
theorem refusedAccess_read_iff (a : BusAddr) (s : State) :
    refusedAccess ⟨32, a, .read⟩ s = true ↔ a.toNat % 4 ≠ 0 ∨ (0x020 ≤ a.toNat ∧ a.toNat ≤ 0x0FF ∨ 0x200 ≤ a.toNat) ∨
      (0x100 ≤ a.toNat ∧ a.toNat ≤ 0x1FF) ∧ s.busy = true := by
  simp [refusedAccess, or_assoc]

/-- R70 for a 32-bit write: as for a read, and the read-only registers, and `CMD` of a block that is not ready. -/
theorem refusedAccess_write_iff (a : BusAddr) (d : Word) (s : State) :
    refusedAccess ⟨32, a, .write d⟩ s = true ↔ refusedAccess ⟨32, a, .read⟩ s = true ∨
      (a.toNat = 0x000 ∨ a.toNat = 0x008 ∨ a.toNat = 0x00C ∨ a.toNat = 0x010 ∨ a.toNat = 0x014) ∨
      a.toNat = 0x004 ∧ (s.busy = true ∨ s.err = true) := by
  simp only [refusedAccess, Bool.or_eq_true, Bool.and_eq_true, decide_eq_true_eq, beq_iff_eq, true_and, false_and,
    Bool.false_eq_true, or_false]
  tauto

/-- Below the window every aligned address is a register that can be read or is reserved; the window is `busRead_window`. -/
theorem busRead_eq_none_iff (a : BusAddr) (s : State) :
    busRead a s = none ↔ refusedAccess ⟨32, a, .read⟩ s = true := by
  rw [refusedAccess_read_iff]
  by_cases ha : a.toNat % 4 = 0
  · by_cases hw : 0x100 ≤ a.toNat ∧ a.toNat < 0x200
    · rw [busRead_window ha hw.1 hw.2]
      cases s.busy <;> simp <;> omega
    · have hout : inBufWindow a = false := by simpa [inBufWindow] using hw
      rw [busRead, if_pos (by simp [aligned, ha]), readWord]
      split
      case h_9 =>
        simp only [imp_false] at *
        exact iff_of_true (by simp [hout]) (.inr (.inl (by omega)))
      all_goals simp; omega
  · simp [busRead, aligned, ha]

theorem busWrite_eq_none_iff (a : BusAddr) (d : Word) (s : State) :
    busWrite a d s = none ↔ refusedAccess ⟨32, a, .write d⟩ s = true := by
  rw [refusedAccess_write_iff, refusedAccess_read_iff]
  by_cases ha : a.toNat % 4 = 0
  · by_cases hw : 0x100 ≤ a.toNat ∧ a.toNat < 0x200
    · rw [busWrite_window ha hw.1 hw.2]
      cases s.busy <;> simp <;> omega
    · have hout : inBufWindow a = false := by simpa [inBufWindow] using hw
      rw [busWrite, if_pos (by simp [aligned, ha]), writeWord]
      split
      case h_1 hcmd => cases s.busy <;> simp [hcmd]
      case h_4 =>
        simp only [imp_false] at *
        refine iff_of_true (by simp [hout]) ?_
        rcases Nat.lt_or_ge a.toNat 0x020 with hlow | hhigh
        · exact .inr (.inl (by omega))
        · exact .inl (.inr (.inl (by omega)))
      all_goals simp; omega
  · simp [busWrite, aligned, ha]

theorem hostAccess_of_refused {x : Access} {s : State} (h : refusedAccess x s = true) : hostAccess x s = refuseAccess s := by
  obtain ⟨width, a, kind⟩ := x
  by_cases hw : width = 32
  · subst hw
    cases kind with
    | read => exact hostAccess_read_refused ((busRead_eq_none_iff a s).2 h)
    | write d => exact hostAccess_write_refused ((busWrite_eq_none_iff a d s).2 h)
  · rw [hostAccess, if_pos hw]

theorem width_of_not_refused {x : Access} {s : State} (h : refusedAccess x s = false) : x.width = 32 := by
  by_contra hw
  simp [refusedAccess, hw] at h

/-- Settles O51: the bus answers nothing exactly for the accesses listed, and the response to any other is `Ok`. -/
theorem refusedExactly : Obligations.RefusedExactly := by
  refine fun x s => ⟨hostAccess_of_refused, fun h => ?_⟩
  have hwidth := width_of_not_refused h
  obtain ⟨width, a, kind⟩ := x
  obtain rfl : width = 32 := hwidth
  cases kind with
  | read =>
    obtain ⟨d, hd⟩ := Option.ne_none_iff_exists'.1 (mt (busRead_eq_none_iff a s).1 (by simp [h]))
    simp [hostAccess_read hd]
  | write d =>
    obtain ⟨s', hs'⟩ := Option.ne_none_iff_exists'.1 (mt (busWrite_eq_none_iff a d s).1 (by simp [h]))
    simp [hostAccess_write hs']

/-- Settles O54: the address `0x100 + 4i` is the word of `BUF` at offset `4i`; while `BUSY` the window is one of the refused cases. -/
theorem bufWindowBigEndian : Obligations.BufWindowBigEndian := by
  intro i s d hi hwf
  have haddr : (BitVec.ofNat 12 (0x100 + 4 * i)).toNat = 0x100 + 4 * i := by
    rw [BitVec.toNat_ofNat]
    omega
  have hoff : bufOffset (BitVec.ofNat 12 (0x100 + 4 * i)) = 4 * i := bufOffset_of_toNat haddr
  have hin : 4 * i + 4 ≤ Config.bufSize := by
    unfold Config.bufSize
    omega
  have hclosed (hb : s.busy = true) : refusedAccess ⟨32, BitVec.ofNat 12 (0x100 + 4 * i), .read⟩ s = true :=
    (refusedAccess_read_iff _ s).2 (.inr (.inr ⟨by omega, hb⟩))
  refine ⟨fun hb => ⟨⟨bufWord s.buf (4 * i), hostAccess_read ?_, ?_⟩,
    ⟨setBufWord s.buf (4 * i) d, hostAccess_write (s' := { s with buf := setBufWord s.buf (4 * i) d }) ?_, ?_, fun a => ?_⟩⟩,
    fun hb => ⟨?_, ?_⟩⟩
  · rw [busRead_window (by omega) (by omega) (by omega), hb, hoff]
    rfl
  · rw [bufWord_toNat, be_bytesAt_four]
  · rw [busWrite_window (by omega) (by omega) (by omega), hb, hoff]
    rfl
  · rw [← be_bytesAt_four, be_bytesAt_setBufWord hwf hin]
  · exact byteAt_setBufWord_of_outside hwf hin d
  · exact hostAccess_of_refused (hclosed hb)
  · exact hostAccess_of_refused ((refusedAccess_write_iff _ d s).2 (.inl (hclosed hb)))

/-! ### Accesses while a command runs -/

/-- An accepted write of `CTRL` that does not reset the block has `SRST = 0` (70_reset_and_hazards.md R270). -/
theorem srst_false_of_not_resetsBlock {x : Access} {d : Word} (hw : x.width = 32) (hk : x.kind = .write d)
    (ha : x.addr.toNat = 0x018) (hx : resetsBlock (.access x) = false) : d.getLsbD 3 = false := by
  obtain ⟨width, addr, kind⟩ := x
  obtain rfl : width = 32 := hw
  obtain rfl : kind = .write d := hk
  obtain rfl : addr = 0x018#12 := BitVec.eq_of_toNat_eq ha
  simpa [resetsBlock] using hx

/-- While a command runs, an access that does not reset the block writes the flags a host clears, the fault record, `OVR`, `IEN`
and its response, and nothing else: `CMD` and the window are closed (20_memory.md R71, R72). -/
theorem hostAccess_while_busy {x : Access} {s : State} (hb : s.busy = true) (hx : resetsBlock (.access x) = false) :
    ∃ err errcode errinfo done ovr ien resp, hostAccess x s =
      { s with err := err, errcode := errcode, errinfo := errinfo, done := done, ovr := ovr, ien := ien, resp := resp } := by
  have hclosed : s.busy ≠ false := by simp [hb]
  rcases hostAccess_cases x s with h | ⟨-, -, d, -, h⟩ | ⟨hw, d, s', hk, hs', h⟩
  · exact ⟨_, _, _, _, _, _, _, h⟩
  · exact ⟨_, _, _, _, _, _, _, h⟩
  · rcases busWrite_cases hs' with ⟨-, hidle, -⟩ | ⟨ha, rfl⟩ | ⟨-, rfl⟩ | ⟨-, -, -, hidle, -⟩
    · exact absurd hidle hclosed
    · rw [ctrlWrite_clear (srst_false_of_not_resetsBlock hw hk ha hx)] at h
      exact ⟨_, _, _, _, _, _, _, h⟩
    · exact ⟨_, _, _, _, _, _, _, h⟩
    · exact absurd hidle hclosed

/-- Settles O57: none of the fields such an access writes belongs to the running command. -/
theorem runningCommandUnaffected : Obligations.RunningCommandUnaffected := by
  rintro x s t hb hx rfl
  obtain ⟨err, errcode, errinfo, done, ovr, ien, resp, h⟩ := hostAccess_while_busy hb hx
  rw [h]
  exact ⟨hb, rfl, rfl, rfl, rfl, rfl, rfl, rfl, rfl⟩

end Sys2Proof.Machine
end

section
/-! SUPPORT. The decoder, one lemma for each format of 30_encoding.md R93: which commands it gives a word, in terms of the word's
fields. The round trips (R92 to R96) and the opcode map (R95) follow from these. -/

namespace Sys2Proof

/-! ### The fields -/

theorem opField_lt (w : Word) : opField w < 256 := (w.extractLsb' 24 8).isLt

theorem aField_lt (w : Word) : aField w < 256 := (w.extractLsb' 16 8).isLt

theorem bField_lt (w : Word) : bField w < 256 := (w.extractLsb' 8 8).isLt

theorem cField_lt (w : Word) : cField w < 256 := (w.extractLsb' 0 8).isLt

theorem packWord_eq_of_fields {w : Word} {op a b c : Nat} (hop : opField w = op) (ha : aField w = a) (hb : bField w = b)
    (hc : cField w = c) : packWord op a b c = w := by
  rw [← hop, ← ha, ← hb, ← hc, packWord_fields]

/-- Two words with the same four fields are the same word (R92). -/
theorem word_eq_iff_fields (w v : Word) :
    w = v ↔ opField w = opField v ∧ aField w = aField v ∧ bField w = bField v ∧ cField w = cField v := by
  refine ⟨fun h => by simp [h], fun ⟨hop, ha, hb, hc⟩ => ?_⟩
  rw [← packWord_fields w, packWord_eq_of_fields hop.symm ha.symm hb.symm hc.symm]

theorem fitsField_iff {n : Nat} : fitsField n = true ↔ n < 256 := by
  rw [fitsField, decide_eq_true_eq, Nat.lt_succ_iff]

/-- A register index fits its 8-bit field (R94). -/
theorem val_lt_256 {n : Nat} (hn : n ≤ 256) (r : Fin n) : r.val < 256 := r.isLt.trans_le hn

/-! ### One field -/

theorem decodeF_eq_ok {v : Nat} {r : FReg} : decodeF v = .ok r ↔ v = r := by
  unfold decodeF
  split
  · simp [Fin.ext_iff]
  · simp; omega

theorem decodeKQ_eq_ok {v : Nat} {r : Fin 4} : decodeKQ v = .ok r ↔ v = r := by
  unfold decodeKQ
  split
  · simp [Fin.ext_iff]
  · simp; omega

theorem unused_eq_ok {v : Nat} {rest : Except Illegal Instr} {i : Instr} :
    unused v rest = .ok i ↔ v = 0 ∧ rest = .ok i := by
  unfold unused
  split <;> simp [*]

theorem illegal_bind_eq_ok {α β : Type} {x : Except Illegal α} {f : α → Except Illegal β} {b : β} :
    x.bind f = .ok b ↔ ∃ a, x = .ok a ∧ f a = .ok b := by
  cases x <;> simp [Except.bind]

/-! ### One format (R93): the fields hold the indices and offsets of the command, and 0 where the format uses none -/

section Formats

variable {w : Word} {i : Instr}

@[simp] theorem formatZ_eq_ok {j : Instr} :
    formatZ w j = .ok i ↔ aField w = 0 ∧ bField w = 0 ∧ cField w = 0 ∧ j = i := by
  simp [formatZ, unused_eq_ok]

@[simp] theorem formatFFF_eq_ok {mk : FReg → FReg → FReg → Instr} :
    formatFFF w mk = .ok i ↔ ∃ d a b : FReg, aField w = d ∧ bField w = a ∧ cField w = b ∧ mk d a b = i := by
  simp [formatFFF, illegal_bind_eq_ok, decodeF_eq_ok]

@[simp] theorem formatFFK_eq_ok {mk : FReg → FReg → KReg → Instr} :
    formatFFK w mk = .ok i ↔ ∃ (d a : FReg) (e : KReg), aField w = d ∧ bField w = a ∧ cField w = e ∧ mk d a e = i := by
  simp [formatFFK, illegal_bind_eq_ok, decodeF_eq_ok, decodeKQ_eq_ok]

@[simp] theorem formatFF_eq_ok {mk : FReg → FReg → Instr} :
    formatFF w mk = .ok i ↔ ∃ d a : FReg, aField w = d ∧ bField w = a ∧ cField w = 0 ∧ mk d a = i := by
  simp [formatFF, illegal_bind_eq_ok, decodeF_eq_ok, unused_eq_ok]

@[simp] theorem formatCFF_eq_ok {mk : FReg → FReg → Instr} :
    formatCFF w mk = .ok i ↔ ∃ a b : FReg, aField w = 0 ∧ bField w = a ∧ cField w = b ∧ mk a b = i := by
  simp [formatCFF, illegal_bind_eq_ok, decodeF_eq_ok, unused_eq_ok]

@[simp] theorem formatQQQ_eq_ok {mk : Fin 4 → Fin 4 → Fin 4 → Instr} :
    formatQQQ w mk = .ok i ↔ ∃ d a b : Fin 4, aField w = d ∧ bField w = a ∧ cField w = b ∧ mk d a b = i := by
  simp [formatQQQ, illegal_bind_eq_ok, decodeKQ_eq_ok]

@[simp] theorem formatQQ_eq_ok {mk : QReg → QReg → Instr} :
    formatQQ w mk = .ok i ↔ ∃ d a : QReg, aField w = d ∧ bField w = a ∧ cField w = 0 ∧ mk d a = i := by
  simp [formatQQ, illegal_bind_eq_ok, decodeKQ_eq_ok, unused_eq_ok]

@[simp] theorem formatCQQ_eq_ok {mk : QReg → QReg → Instr} :
    formatCQQ w mk = .ok i ↔ ∃ a b : QReg, aField w = 0 ∧ bField w = a ∧ cField w = b ∧ mk a b = i := by
  simp [formatCQQ, illegal_bind_eq_ok, decodeKQ_eq_ok, unused_eq_ok]

@[simp] theorem formatQ_eq_ok {mk : QReg → Instr} :
    formatQ w mk = .ok i ↔ ∃ d : QReg, aField w = d ∧ bField w = 0 ∧ cField w = 0 ∧ mk d = i := by
  simp [formatQ, illegal_bind_eq_ok, decodeKQ_eq_ok, unused_eq_ok]

@[simp] theorem formatMF_eq_ok {mk : FReg → Nat → Instr} :
    formatMF w mk = .ok i ↔ ∃ r : FReg, aField w = r ∧ cField w = 0 ∧ mk r (bField w) = i := by
  simp [formatMF, illegal_bind_eq_ok, decodeF_eq_ok, unused_eq_ok]

@[simp] theorem formatMKQ_eq_ok {mk : Fin 4 → Nat → Instr} :
    formatMKQ w mk = .ok i ↔ ∃ r : Fin 4, aField w = r ∧ cField w = 0 ∧ mk r (bField w) = i := by
  simp [formatMKQ, illegal_bind_eq_ok, decodeKQ_eq_ok, unused_eq_ok]

@[simp] theorem formatS_eq_ok {mk : Nat → Nat → Nat → Instr} :
    formatS w mk = .ok i ↔ mk (aField w) (bField w) (cField w) = i := by
  simp [formatS]

end Formats

/-! ### The round trips -/

/-- Settles O1: the opcode selects the command's format, whose fields hold the command's operands. -/
theorem decodeEncodeRoundTrip : Obligations.DecodeEncodeRoundTrip := by
  intro i hi
  cases i <;> simp only [WellFormed, Bool.and_eq_true, fitsField_iff] at hi <;>
    simp [decode, encode, opcodeOf, val_lt_256, Fin.val_inj, hi]

/-- Settles O2: the fields of the word are the operands the format found there, and an offset fits because a field gave it. -/
theorem encodeDecodeRoundTrip : Obligations.EncodeDecodeRoundTrip := by
  intro w i h
  have hoff : fitsField (bField w) = true := fitsField_iff.2 (bField_lt w)
  unfold decode at h
  split at h <;> rename_i hop <;>
    simp only [formatZ_eq_ok, formatFFF_eq_ok, formatFFK_eq_ok, formatFF_eq_ok, formatCFF_eq_ok, formatQQQ_eq_ok,
      formatQQ_eq_ok, formatCQQ_eq_ok, formatQ_eq_ok, formatMF_eq_ok, formatMKQ_eq_ok, formatS_eq_ok, reduceCtorEq] at h
  -- no operand
  case h_1 =>
    obtain ⟨ha, hb, hc, rfl⟩ := h
    exact ⟨rfl, packWord_eq_of_fields hop ha hb hc⟩
  -- three registers
  case h_2 | h_3 | h_4 | h_5 | h_6 | h_9 | h_11 =>
    obtain ⟨d, a, b, ha, hb, hc, rfl⟩ := h
    exact ⟨rfl, packWord_eq_of_fields hop ha hb hc⟩
  -- two registers
  case h_7 | h_8 | h_10 | h_12 =>
    obtain ⟨d, a, ha, hb, hc, rfl⟩ := h
    exact ⟨rfl, packWord_eq_of_fields hop ha hb hc⟩
  -- one register
  case h_13 =>
    obtain ⟨d, ha, hb, hc, rfl⟩ := h
    exact ⟨rfl, packWord_eq_of_fields hop ha hb hc⟩
  -- a register and an offset
  case h_14 | h_15 | h_16 | h_17 | h_18 | h_19 =>
    obtain ⟨r, ha, hc, rfl⟩ := h
    exact ⟨hoff, packWord_eq_of_fields hop ha rfl hc⟩
  -- two offsets and a length
  case h_20 | h_21 =>
    subst h
    exact ⟨by simp [WellFormed, fitsField_iff, aField_lt, bField_lt, cField_lt], packWord_eq_of_fields hop rfl rfl rfl⟩

@[simp] theorem opField_encode (i : Instr) : opField (encode i) = opcodeOf i := by
  cases i <;> exact opField_packWord (opcodeOf_lt _) _ _ _

/-- A word that decodes has the opcode of its command in its `OP` field. -/
theorem opcodeOf_of_decode {w : Word} {i : Instr} (h : decode w = .ok i) : opcodeOf i = opField w := by
  rw [← (encodeDecodeRoundTrip w i h).2, opField_encode]

/-! ### The opcode map (R95) -/

/-- The mask that covers the bits of an 8-bit field from the `k`-th on clears a value exactly when it is below `2 ^ k` (R94). -/
theorem and_mask_eq_zero_iff {v : Nat} (hv : v < 2 ^ 8) {k : Nat} (hk : k ≤ 8) : v &&& (2 ^ 8 - 2 ^ k) = 0 ↔ v < 2 ^ k := by
  have hmask : 2 ^ 8 - 2 ^ k = 2 ^ k * (2 ^ (8 - k) - 1) := by
    rw [Nat.mul_sub, ← pow_add, Nat.add_sub_cancel' hk, mul_one]
  have hlow : (v &&& (2 ^ 8 - 2 ^ k)) % 2 ^ k = 0 := by
    rw [Nat.and_mod_two_pow, hmask, Nat.mul_mod_right, Nat.and_zero]
  have hhigh : (v &&& (2 ^ 8 - 2 ^ k)) / 2 ^ k = v / 2 ^ k := by
    have hv' : v / 2 ^ k < 2 ^ (8 - k) := by
      rwa [Nat.div_lt_iff_lt_mul (by positivity), ← pow_add, Nat.sub_add_cancel hk]
    rw [Nat.and_div_two_pow, hmask, Nat.mul_div_cancel_left _ (by positivity), Nat.and_two_pow_sub_one_of_lt_two_pow hv']
  rw [← Nat.div_eq_zero_iff_lt (by positivity), ← hhigh]
  refine ⟨fun h => by rw [h, Nat.zero_div], fun h => ?_⟩
  rw [← Nat.div_add_mod (v &&& _) (2 ^ k), h, hlow, mul_zero]

/-- An `F` field's mask (R94, R95). -/
theorem and_maskF {v : Nat} (hv : v < 256) : v &&& 0xF8 = 0 ↔ v < 8 := and_mask_eq_zero_iff hv (k := 3) (by decide)

/-- A `K` or `Q` field's mask (R94, R95). -/
theorem and_maskKQ {v : Nat} (hv : v < 256) : v &&& 0xFC = 0 ↔ v < 4 := and_mask_eq_zero_iff hv (k := 2) (by decide)

/-- An unused field's mask (R92, R95). -/
theorem and_maskUnused {v : Nat} (hv : v < 256) : v &&& 0xFF = 0 ↔ v = 0 :=
  (and_mask_eq_zero_iff hv (k := 0) (by decide)).trans Nat.lt_one_iff

@[simp] theorem aField_ofNat (n : Nat) : aField (BitVec.ofNat 32 n) = n / 2 ^ 16 % 256 := by
  rw [aField_eq, BitVec.toNat_ofNat]; omega

@[simp] theorem bField_ofNat (n : Nat) : bField (BitVec.ofNat 32 n) = n / 2 ^ 8 % 256 := by
  rw [bField_eq, BitVec.toNat_ofNat]; omega

@[simp] theorem cField_ofNat (n : Nat) : cField (BitVec.ofNat 32 n) = n % 256 := by
  rw [cField_eq, BitVec.toNat_ofNat]; omega

/-- A mask acts on each field by itself. -/
theorem and_eq_iff_fields (w m x : Word) : w &&& m = x ↔ opField w &&& opField m = opField x ∧
    aField w &&& aField m = aField x ∧ bField w &&& bField m = bField x ∧ cField w &&& cField m = cField x := by
  rw [word_eq_iff_fields]
  simp [opField, aField, bField, cField, BitVec.extractLsb'_and]

/-- A row of the map accepts a word with the row's opcode whose other fields are cleared by the row's mask. -/
theorem rowAccepts_iff {w : Word} {r : Row} (hr : r ∈ opcodeMap) :
    rowAccepts w r = true ↔ opField w = r.op ∧
      aField w &&& aField r.mask = 0 ∧ bField w &&& bField r.mask = 0 ∧ cField w &&& cField r.mask = 0 := by
  have hcols : ∀ r ∈ opcodeMap, opField r.mask = 2 ^ 8 - 1 ∧ opField r.matchWord = r.op ∧
      aField r.matchWord = 0 ∧ bField r.matchWord = 0 ∧ cField r.matchWord = 0 := by decide
  obtain ⟨hmask, hop, ha, hb, hc⟩ := hcols r hr
  rw [rowAccepts, decide_eq_true_eq, and_eq_iff_fields, hmask, hop, ha, hb, hc, Nat.and_two_pow_sub_one_of_lt_two_pow (opField_lt w)]

/-- A row accepts exactly the words of its opcode that decode: for each row, its masks are the ranges its format checks. -/
theorem rowAccepts_iff_decodes {w : Word} {r : Row} (hr : r ∈ opcodeMap) :
    rowAccepts w r = true ↔ opField w = r.op ∧ ∃ i, decode w = .ok i := by
  rw [rowAccepts_iff hr]
  refine and_congr_right fun hop => ?_
  unfold decode
  fin_cases hr <;> rw [hop] <;>
    simp [Fin.exists_iff, aField_lt, bField_lt, cField_lt, and_maskF, and_maskKQ, and_maskUnused, and_assoc, and_comm,
      and_left_comm]

/-- Settles O3: a row accepts the words of its opcode that decode, and the opcode of a row is its own. -/
theorem decodeFollowsOpcodeMap : Obligations.DecodeFollowsOpcodeMap := by
  refine ⟨fun w i h => ?_, fun w r hr hw => ?_, fun w r r' hr hr' hw hw' => ?_⟩
  · obtain ⟨r, hr, hop⟩ : ∃ r ∈ opcodeMap, r.op = opcodeOf i := by cases i <;> simp [opcodeMap, opcodeOf]
    exact ⟨r, hr, hop, (rowAccepts_iff_decodes hr).2 ⟨by rw [hop, opcodeOf_of_decode h], i, h⟩⟩
  · obtain ⟨hop, i, h⟩ := (rowAccepts_iff_decodes hr).1 hw
    exact ⟨i, h, by rw [opcodeOf_of_decode h, hop]⟩
  · have hinj : ∀ r ∈ opcodeMap, ∀ r' ∈ opcodeMap, r.op = r'.op → r = r' := by decide
    exact hinj r hr r' hr' (((rowAccepts_iff hr).1 hw).1.symm.trans ((rowAccepts_iff hr').1 hw').1)

/-- Settles O4: the decoder, run on each word. -/
theorem specWordsDecode : Obligations.SpecWordsDecode := by
  unfold Obligations.SpecWordsDecode
  decide

end Sys2Proof
end

section
/-! SUPPORT. The field commands (40_field.md R130 to R136): one equation for each form of command, the operation's answer given, and the
obligations, which name the answer. -/

namespace Sys2Proof.Machine

/-! ### The functional layer (40_field.md R120, R126, R127) -/

theorem feInv_ok {a : Fe} (h : a.val ≠ 0) : feInv a = .ok (fePow a (Config.P - 2)) := by rw [feInv, if_neg h]

theorem feDiv_ok (a : Fe) {b : Fe} (h : b.val ≠ 0) : feDiv a b = .ok (feMul a (fePow b (Config.P - 2))) := by
  rw [feDiv, feInv_ok h]; rfl

/-- An equation between products in the field, on the reduced integers. -/
theorem mul_val_mod_of_toZ {a b c : Fe} (h : toZ a * toZ b = toZ c) : a.val * b.val % Config.P = c.val := by
  rw [← feMul_val, toZ_injective ((toZ_feMul a b).trans h)]

theorem normFe_one_val : (normFe 1).val = 1 := by decide

/-- At modulus `P` the generic operation is the block's: the exact integer, normalised (40_field.md R120, R121). -/
theorem opGeneric_genericOf (op : Int → Int → Int) (a b : Fe) :
    opGeneric op (genericOf a) (genericOf b) = .ok (genericOf (normFe (op a.val b.val))) :=
  if_neg (not_not.2 rfl)

/-! ### The forms of command (40_field.md R130 to R136) -/

/-- A completed command with an `F` destination: the destination holds the result. -/
theorem regF_completeOk_setF (s : State) (d : FReg) (v : Fe) : regF (completeOk (setF s d v)) d = some v := by
  rw [regF_congr (completeOk_f _), regF_setF, if_pos rfl]

section
variable {s : State} {a b : FReg} {x y : Fe} (hx : regF s a = some x)
include hx

/-- With valid sources a three-register command completes with what its operation answers. -/
theorem fieldBinary_of_sources (hy : regF s b = some y) (op : Fe → Fe → Res Fe) (d : FReg) :
    fieldBinary op d a b s = finish ((op x y).bind fun r => .ok (setF s d r)) s := by
  rw [fieldBinary, needF_ok hx, needF_ok hy, res_bind_ok, res_bind_ok]

theorem exec_fdiv_ok (hy : regF s b = some y) (h0 : y.val ≠ 0) (d : FReg) :
    exec (.fdiv d a b) s = .next (completeOk (setF s d (feMul x (fePow y (Config.P - 2))))) := by
  rw [exec, execFdiv, fieldBinary_of_sources hx hy, feDiv_ok x h0, res_bind_ok, finish_ok]

theorem exec_fdiv_zero (hy : regF s b = some y) (h0 : y.val = 0) (d : FReg) :
    exec (.fdiv d a b) s = .next (raiseFault .invalidPoint s) := by
  rw [exec, execFdiv, fieldBinary_of_sources hx hy, feDiv_zero x h0, res_bind_error, finish_error]

theorem exec_finv_ok (h0 : x.val ≠ 0) (d : FReg) :
    exec (.finv d a) s = .next (completeOk (setF s d (fePow x (Config.P - 2)))) := by
  rw [exec, execFinv, needF_ok hx, res_bind_ok, feInv_ok h0, res_bind_ok, finish_ok]

theorem exec_finv_zero (h0 : x.val = 0) (d : FReg) : exec (.finv d a) s = .next (raiseFault .invalidPoint s) := by
  rw [exec, execFinv, needF_ok hx, res_bind_ok, feInv_zero h0, res_bind_error, finish_error]

theorem exec_fpow_ok {e : KReg} {n : Scalar} (hn : regK s e = some n) (d : FReg) :
    exec (.fpow d a e) s = .next (completeOk (setF s d (fePow x n.toNat))) := by
  rw [exec, execFpow, needF_ok hx, needK_ok hn, res_bind_ok, res_bind_ok, finish_ok]

theorem exec_feq_ok (hy : regF s b = some y) : exec (.feq a b) s = .next (completeOk (setT s (feEq x y))) := by
  rw [exec, execFeq, needF_ok hx, needF_ok hy, res_bind_ok, res_bind_ok, finish_ok]

end

/-! ### The obligations -/

/-- Settles O13: the quotient is the product with the inverse, one reduction after another. -/
theorem fdivResult : Obligations.FdivResult := by
  intro d a b s x y hx hy h0
  refine ⟨feMul x (fePow y (Config.P - 2)), ?_, exec_fdiv_ok hx hy h0 d⟩
  rw [feMul_val, fePow_val, Nat.mul_mod_mod]

/-- Settles O14: the inverse is the power by `P - 2`. -/
theorem finvResult : Obligations.FinvResult := by
  intro d a s x hx h0
  exact ⟨fePow x (Config.P - 2), fePow_val x _, exec_finv_ok hx h0 d⟩

/-- Settles O15: the quotient and the inverse that the commands write are those of the field `ZMod P`. -/
theorem divisionInvertsMultiplication : Obligations.DivisionInvertsMultiplication := by
  intro d a b s x y hx hy h0
  refine ⟨⟨_, _, exec_fdiv_ok hx hy h0 d, regF_completeOk_setF s d _, ?_⟩,
    ⟨_, _, exec_finv_ok hy h0 d, regF_completeOk_setF s d _, ?_⟩⟩
  · obtain ⟨r, hr, hmul⟩ := feDiv_spec x h0
    obtain rfl : _ = r := Except.ok.inj ((feDiv_ok x h0).symm.trans hr)
    exact mul_val_mod_of_toZ hmul
  · obtain ⟨i, hi, hmul⟩ := feInv_spec h0
    obtain rfl : _ = i := Except.ok.inj ((feInv_ok h0).symm.trans hi)
    have hone : toZ (fePow y (Config.P - 2)) * toZ y = toZ (normFe 1) := by
      rw [mul_comm, hmul, toZ_normFe, Int.cast_one]
    rw [mul_val_mod_of_toZ hone, normFe_one_val]

/-- Settles O16: square and multiply over all the bits of the exponent is the power. -/
theorem fpowResult : Obligations.FpowResult := by
  intro d a e s x n hx hn
  exact ⟨fePow x n.toNat, fePow_val x _, exec_fpow_ok hx hn d⟩

/-- Settles O12: the three operations are the exact integer, normalised. -/
theorem sumDifferenceProduct : Obligations.SumDifferenceProduct := by
  intro d a b s x y hx hy
  exact ⟨⟨feAdd x y, normFe_val _, fieldBinary_of_sources hx hy _ d⟩,
    ⟨feSub x y, normFe_val _, fieldBinary_of_sources hx hy _ d⟩,
    ⟨feMul x y, normFe_val _, fieldBinary_of_sources hx hy _ d⟩⟩

/-- Settles O17: the inverse of 0 is the fault, and a division by 0 takes it before it multiplies. -/
theorem zeroDivisorFaults : Obligations.ZeroDivisorFaults := by
  intro d a b s x y hx hy h0
  exact ⟨exec_fdiv_zero hx hy h0 d, exec_finv_zero hy h0 d⟩

/-- Settles O18: two elements are equal exactly when their integers are. -/
theorem feqResult : Obligations.FeqResult := by
  intro a b s x y hx hy
  have heq : feEq x y = decide (x.val = y.val) := decide_eq_decide.2 Fin.ext_iff
  rw [exec_feq_ok hx hy, heq]
  rfl

/-- Settles O19: the modulus is checked before the operation, and at modulus `P` the operation is normalised as the block's. -/
theorem genericFieldInstantiates : Obligations.GenericFieldInstantiates :=
  ⟨fun _ _ _ h => if_pos h,
    fun a b => ⟨opGeneric_genericOf _ a b, opGeneric_genericOf _ a b, opGeneric_genericOf _ a b⟩⟩

end Sys2Proof.Machine
end

section
/-! SUPPORT. Point addition as a function (41_point.md R151 to R155): one equation for each of its cases, the formulas of the tangent
and the chord as congruences, and that it is commutative on all points. -/

namespace Sys2Proof.Machine

/-! ### Opposite coordinates (41_point.md R150, R151) -/

/-- Two elements are opposite exactly when their integers sum to 0 modulo `P`. -/
theorem eq_feNeg_iff {a b : Fe} : a = feNeg b ↔ (a.val + b.val) % Config.P = 0 := by
  rw [← feAdd_val, ← toZ_eq_zero, toZ_feAdd, add_eq_zero_iff_eq_neg, ← toZ_feNeg, toZ_inj]

theorem eq_feNeg_comm {a b : Fe} : a = feNeg b ↔ b = feNeg a := by
  rw [eq_feNeg_iff, eq_feNeg_iff, Nat.add_comm]

/-- 0 alone is its own opposite (`P` is odd). -/
theorem eq_feNeg_self_iff {y : Fe} : y = feNeg y ↔ y.val = 0 := by
  have := fact_prime_P
  rw [← toZ_inj, toZ_feNeg, eq_neg_iff_add_eq_zero, ← two_mul, mul_eq_zero, or_iff_right two_ne_zero_ZMod, toZ_eq_zero]

/-! ### The quotient and the end of an addition -/

/-- Division answers the one element whose product with the divisor is the dividend (40_field.md R127). -/
theorem feDiv_eq_ok {a b r : Fe} (h0 : b.val ≠ 0) (h : toZ r * toZ b = toZ a) : feDiv a b = .ok r := by
  have := fact_prime_P
  obtain ⟨r', hr', h'⟩ := feDiv_spec a h0
  have hr : toZ r' = toZ r := mul_right_cancel₀ (mt toZ_eq_zero.1 h0) (h'.trans h.symm)
  rw [hr', toZ_injective hr]

/-- `finish(lam)` of 41_point.md R151 as equations of the field. -/
theorem chordEnd_spec (lam px py qx : Fe) : ∃ x3 y3, chordEnd lam px py qx = .finite x3 y3 ∧
    toZ x3 = toZ lam * toZ lam - toZ px - toZ qx ∧ toZ y3 = toZ lam * (toZ px - toZ x3) - toZ py :=
  ⟨_, _, rfl, by simp only [toZ_feSub, toZ_feMul], by simp only [toZ_feSub, toZ_feMul]⟩

/-- With the slope of the tangent the end of an addition is the tangent's point. -/
theorem chordEnd_tangentPoint {lam x y : Fe} (hlam : toZ lam * (2 * toZ y) = 3 * (toZ x * toZ x)) :
    ∃ x3 y3, chordEnd lam x y x = .finite x3 y3 ∧ TangentPoint x.val y.val x3.val y3.val := by
  obtain ⟨x3, y3, hend, hx3, hy3⟩ := chordEnd_spec lam x y x
  refine ⟨x3, y3, hend, lam.val, ?_⟩
  simp only [← ZMod.natCast_eq_natCast_iff', Nat.cast_add, Nat.cast_mul, Nat.cast_ofNat]
  unfold toZ at hlam hx3 hy3
  exact ⟨by linear_combination hlam, by linear_combination hx3, by linear_combination hy3⟩

/-- With the slope of the chord the end of an addition is the chord's point. -/
theorem chordEnd_chordPoint {lam px py qx qy : Fe} (hlam : toZ lam * (toZ qx - toZ px) = toZ qy - toZ py) :
    ∃ x3 y3, chordEnd lam px py qx = .finite x3 y3 ∧ ChordPoint px.val py.val qx.val qy.val x3.val y3.val := by
  obtain ⟨x3, y3, hend, hx3, hy3⟩ := chordEnd_spec lam px py qx
  refine ⟨x3, y3, hend, lam.val, ?_⟩
  simp only [← ZMod.natCast_eq_natCast_iff', Nat.cast_add, Nat.cast_mul]
  unfold toZ at hlam hx3 hy3
  exact ⟨by linear_combination hlam, by linear_combination hx3, by linear_combination hy3⟩

/-- The chord ends in the same point from either side (41_point.md R155). -/
theorem chordEnd_comm {lam px py qx qy : Fe} (hlam : toZ lam * (toZ qx - toZ px) = toZ qy - toZ py) :
    chordEnd lam px py qx = chordEnd lam qx qy px := by
  obtain ⟨x3, y3, hend, hx3, hy3⟩ := chordEnd_spec lam px py qx
  obtain ⟨x3', y3', hend', hx3', hy3'⟩ := chordEnd_spec lam qx qy px
  obtain rfl : x3 = x3' := toZ_injective (by linear_combination hx3 - hx3')
  obtain rfl : y3 = y3' := toZ_injective (by linear_combination hy3 - hy3' - hlam)
  rw [hend, hend']

/-! ### The cases of an addition (41_point.md R151) -/

@[simp] theorem ptAdd_infinity_left (q : Point) : ptAdd .infinity q = .ok q := rfl

@[simp] theorem ptAdd_infinity_right (p : Point) : ptAdd p .infinity = .ok p := by cases p <;> rfl

/-- Case 3: a point and its inverse. -/
theorem ptAdd_inverse (x : Fe) {py qy : Fe} (h : py = feNeg qy) : ptAdd (.finite x py) (.finite x qy) = .ok .infinity := by
  rw [ptAdd, if_pos ⟨rfl, h⟩]

/-- Case 4: the tangent, whose slope exists (41_point.md R152). -/
theorem ptAdd_tangent (x : Fe) {y : Fe} (h : y.val ≠ 0) :
    ∃ x3 y3, ptAdd (.finite x y) (.finite x y) = .ok (.finite x3 y3) ∧ TangentPoint x.val y.val x3.val y3.val := by
  have hne : y ≠ feNeg y := mt eq_feNeg_self_iff.1 h
  obtain ⟨lam, hdiv, hlam⟩ := feDiv_spec (feMul (normFe 3) (feMul x x)) (double_ne_zero hne)
  simp only [toZ_feMul, toZ_normFe, Int.cast_ofNat] at hlam
  obtain ⟨x3, y3, hend, htan⟩ := chordEnd_tangentPoint hlam
  exact ⟨x3, y3, by rw [ptAdd, if_neg (hne ·.2), if_pos ⟨rfl, rfl⟩, hdiv, res_bind_ok, hend], htan⟩

/-- Case 5 with equal `x`: the divisor is 0 (41_point.md R153). -/
theorem ptAdd_clash (x : Fe) {py qy : Fe} (hne : py ≠ qy) (hneg : py ≠ feNeg qy) :
    ptAdd (.finite x py) (.finite x qy) = .error .invalidPoint := by
  have h0 : (feSub x x).val = 0 := toZ_eq_zero.1 (by rw [toZ_feSub, sub_self])
  rw [ptAdd, if_neg (hneg ·.2), if_neg (hne ·.2), feDiv_zero _ h0, res_bind_error]

/-- The divisor of a chord is 0 only for equal `x` (41_point.md R153). -/
theorem chord_ne_zero {px qx : Fe} (h : px ≠ qx) : (feSub qx px).val ≠ 0 := by
  rw [ne_eq, ← toZ_eq_zero, toZ_feSub, sub_eq_zero, toZ_inj]
  exact h.symm

theorem exists_chordSlope {px qx : Fe} (h : px ≠ qx) (py qy : Fe) :
    ∃ lam, toZ lam * (toZ qx - toZ px) = toZ qy - toZ py := by
  obtain ⟨lam, -, hlam⟩ := feDiv_spec (feSub qy py) (chord_ne_zero h)
  exact ⟨lam, by rwa [toZ_feSub, toZ_feSub] at hlam⟩

/-- Case 5 with different `x`: the chord, by its slope. -/
theorem ptAdd_chord {px py qx qy lam : Fe} (h : px ≠ qx) (hlam : toZ lam * (toZ qx - toZ px) = toZ qy - toZ py) :
    ptAdd (.finite px py) (.finite qx qy) = .ok (chordEnd lam px py qx) := by
  have hdiv : feDiv (feSub qy py) (feSub qx px) = .ok lam :=
    feDiv_eq_ok (chord_ne_zero h) (by rw [toZ_feSub, toZ_feSub, hlam])
  rw [ptAdd, if_neg (h ·.1), if_neg (h ·.1), hdiv, res_bind_ok]

/-! ### When an addition faults, its symmetry, and doubling (41_point.md R153 to R155) -/

/-- Two finite points with the same `x` and `y` neither equal nor opposite (41_point.md R153). -/
def PointClash (p q : Point) : Prop :=
  ∃ x py qy : Fe, p = .finite x py ∧ q = .finite x qy ∧ py ≠ qy ∧ (py.val + qy.val) % Config.P ≠ 0

theorem ptAdd_of_clash {p q : Point} (h : PointClash p q) : ptAdd p q = .error .invalidPoint := by
  obtain ⟨x, py, qy, rfl, rfl, hne, hsum⟩ := h
  exact ptAdd_clash x hne (mt eq_feNeg_iff.1 hsum)

theorem ptAdd_of_not_clash {p q : Point} (h : ¬ PointClash p q) : ∃ r, ptAdd p q = .ok r := by
  match p, q with
  | .infinity, q => exact ⟨q, rfl⟩
  | p, .infinity => exact ⟨p, ptAdd_infinity_right p⟩
  | .finite px py, .finite qx qy =>
    by_cases hx : px = qx
    · subst hx
      by_cases hneg : py = feNeg qy
      · exact ⟨_, ptAdd_inverse px hneg⟩
      · by_cases hy : py = qy
        · subst hy
          exact ⟨_, ptAdd_self _⟩
        · exact absurd ⟨px, py, qy, rfl, rfl, hy, mt eq_feNeg_iff.2 hneg⟩ h
    · obtain ⟨lam, hlam⟩ := exists_chordSlope hx py qy
      exact ⟨_, ptAdd_chord hx hlam⟩

/-- Addition is commutative on all points, a fault included: every case is symmetric, and a chord has the same slope from both
sides (41_point.md R155). -/
theorem ptAdd_comm (p q : Point) : ptAdd p q = ptAdd q p := by
  match p, q with
  | .infinity, q => exact (ptAdd_infinity_right q).symm
  | p, .infinity => exact ptAdd_infinity_right p
  | .finite px py, .finite qx qy =>
    by_cases hx : px = qx
    · subst hx
      by_cases hneg : py = feNeg qy
      · rw [ptAdd_inverse px hneg, ptAdd_inverse px (eq_feNeg_comm.1 hneg)]
      · by_cases hy : py = qy
        · rw [hy]
        · rw [ptAdd_clash px hy hneg, ptAdd_clash px (Ne.symm hy) (mt eq_feNeg_comm.1 hneg)]
    · obtain ⟨lam, hlam⟩ := exists_chordSlope hx py qy
      have hswap : toZ lam * (toZ px - toZ qx) = toZ py - toZ qy := by linear_combination -hlam
      rw [ptAdd_chord hx hlam, ptAdd_chord (Ne.symm hx) hswap, chordEnd_comm hlam]

/-- Doubling is the sum of a point with itself, whichever case gave it (41_point.md R154). -/
theorem ptDouble_eq {p r : Point} (h : ptAdd p p = .ok r) : ptDouble p = r :=
  Except.ok.inj ((ptAdd_self p).symm.trans h)

/-! ### The generator (00_scope.md R6) -/

/-- A number below `P` is its own normal form. -/
theorem normFe_natCast_val {n : Nat} (h : n < Config.P) : (normFe (n : Int)).val = n := by
  have hval := normFe_val (n : Int)
  rw [← Int.natCast_mod, Nat.mod_eq_of_lt h] at hval
  exact_mod_cast hval

end Sys2Proof.Machine
end

section
/-! SUPPORT. The point commands PADD, PDBL, PEQ and LDG (41_point.md R157 to R161): one equation for each way they end, and the
obligations, which name the point. -/

namespace Sys2Proof.Machine

/-! ### How the commands end -/

theorem needQ_error {s : State} {a : QReg} (h : regQ s a = none) : needQ s a = .error .uninitRegister := by
  rw [needQ, h, need_none]

/-- PADD with an invalid source, whichever it is (60_exceptions.md R237). -/
theorem exec_padd_uninit {s : State} {a b : QReg} (h : regQ s a = none ∨ regQ s b = none) (d : QReg) :
    exec (.padd d a b) s = .next (raiseFault .uninitRegister s) := by
  rw [exec, execPadd]
  cases hp : regQ s a with
  | none => rw [needQ_error hp, res_bind_error, finish_error]
  | some p =>
    have hq : regQ s b = none := h.resolve_left (by simp [hp])
    rw [needQ_ok hp, needQ_error hq, res_bind_ok, res_bind_error, finish_error]

section
variable {s : State} {a b : QReg} {p q : Point} (hp : regQ s a = some p)
include hp

/-- With valid sources PADD completes with what the addition answers. -/
theorem exec_padd_of_sources (hq : regQ s b = some q) (d : QReg) :
    exec (.padd d a b) s = finish ((ptAdd p q).bind fun r => .ok (setQ s d r)) s := by
  rw [exec, execPadd, needQ_ok hp, needQ_ok hq, res_bind_ok, res_bind_ok]

theorem exec_padd_ok (hq : regQ s b = some q) {r : Point} (h : ptAdd p q = .ok r) (d : QReg) :
    exec (.padd d a b) s = .next (completeOk (setQ s d r)) := by
  rw [exec_padd_of_sources hp hq, h, res_bind_ok, finish_ok]

theorem exec_padd_error (hq : regQ s b = some q) {c : FaultCode} (h : ptAdd p q = .error c) (d : QReg) :
    exec (.padd d a b) s = .next (raiseFault c s) := by
  rw [exec_padd_of_sources hp hq, h, res_bind_error, finish_error]

theorem exec_pdbl_ok (d : QReg) : exec (.pdbl d a) s = .next (completeOk (setQ s d (ptDouble p))) := by
  rw [exec, execPdbl, needQ_ok hp, res_bind_ok, finish_ok]

theorem exec_peq_ok (hq : regQ s b = some q) : exec (.peq a b) s = .next (completeOk (setT s (ptEq p q))) := by
  rw [exec, execPeq, needQ_ok hp, needQ_ok hq, res_bind_ok, res_bind_ok, finish_ok]

end

/-! ### The obligations -/

/-- Settles O20: the first three cases of the addition. -/
theorem paddIdentityAndInverse : Obligations.PaddIdentityAndInverse := by
  intro d a b s p q hp hq
  refine ⟨?_, ?_, ?_⟩
  · rintro rfl
    exact exec_padd_ok hp hq (ptAdd_infinity_left q) d
  · rintro rfl
    exact exec_padd_ok hp hq (ptAdd_infinity_right p) d
  · rintro x py qy rfl rfl hsum
    exact exec_padd_ok hp hq (ptAdd_inverse x (eq_feNeg_iff.2 hsum)) d

/-- Settles O21: the tangent's slope exists because `2y` is not 0. -/
theorem paddOfEqualPoints : Obligations.PaddOfEqualPoints := by
  intro d a b s x y hp hq hy
  obtain ⟨x3, y3, hadd, htan⟩ := ptAdd_tangent x hy
  exact ⟨x3, y3, htan, exec_padd_ok hp hq hadd d⟩

/-- Settles O22: the chord's slope exists because the difference of the `x` is not 0. -/
theorem paddOfChord : Obligations.PaddOfChord := by
  intro d a b s px py qx qy hp hq hx
  obtain ⟨lam, hlam⟩ := exists_chordSlope hx py qy
  obtain ⟨x3, y3, hend, hchord⟩ := chordEnd_chordPoint hlam
  exact ⟨x3, y3, hchord, exec_padd_ok hp hq (hend ▸ ptAdd_chord hx hlam) d⟩

/-- Settles O23: the addition answers a point unless the points clash, and then `InvalidPoint`. -/
theorem paddFaultsExactlyOnClash : Obligations.PaddFaultsExactlyOnClash := by
  intro d a b s p q herr hp hq
  by_cases hclash : PointClash p q
  · have hexec := exec_padd_error hp hq (ptAdd_of_clash hclash) d
    refine ⟨iff_of_true ⟨_, hexec, raiseFault_err s _⟩ hclash, fun t ht _ => ?_⟩
    rw [hexec, Host.Outcome.next.injEq] at ht
    exact ht.symm
  · obtain ⟨r, hr⟩ := ptAdd_of_not_clash hclash
    have hok : ∀ t, exec (.padd d a b) s = .next t → t.err ≠ true := by
      intro t ht
      rw [exec_padd_ok hp hq hr d, Host.Outcome.next.injEq] at ht
      simp [← ht, herr]
    exact ⟨iff_of_false (fun ⟨t, ht, h1⟩ => hok t ht h1) hclash, fun t ht h1 => absurd h1 (hok t ht)⟩

/-- Settles O24: the double is the sum of the point with itself, case by case. -/
theorem pdblResult : Obligations.PdblResult := by
  intro d a s p hp
  refine ⟨ptDouble p, exec_pdbl_ok hp d, ?_, ?_, ?_⟩
  · rintro rfl
    exact ptDouble_eq (ptAdd_infinity_left _)
  · rintro x y rfl hy
    exact ptDouble_eq (ptAdd_inverse x (eq_feNeg_self_iff.2 hy))
  · rintro x y rfl hy
    obtain ⟨x3, y3, hadd, htan⟩ := ptAdd_tangent x hy
    exact ⟨x3, y3, ptDouble_eq hadd, htan⟩

/-- Settles O25: a valid source is added to itself, an invalid one is the same fault. -/
theorem pdblIsPaddOfSelf : Obligations.PdblIsPaddOfSelf := by
  intro d a s
  cases hp : regQ s a with
  | none => rw [exec_padd_uninit (.inl hp), exec, execPdbl, needQ_error hp, res_bind_error, finish_error]
  | some p => rw [exec_pdbl_ok hp, exec_padd_ok hp hp (ptAdd_self p)]

/-- Settles O26: with valid sources the addition is commutative, with an invalid one both orders take the same fault. -/
theorem paddCommutes : Obligations.PaddCommutes := by
  intro d a b s
  by_cases h : regQ s a = none ∨ regQ s b = none
  · rw [exec_padd_uninit h, exec_padd_uninit h.symm]
  · obtain ⟨ha, hb⟩ := not_or.1 h
    obtain ⟨p, hp⟩ := Option.ne_none_iff_exists'.1 ha
    obtain ⟨q, hq⟩ := Option.ne_none_iff_exists'.1 hb
    rw [exec_padd_of_sources hp hq, exec_padd_of_sources hq hp, ptAdd_comm]

/-- Settles O27: `T` is the equality of the tagged points. -/
theorem peqResult : Obligations.PeqResult := by
  intro a b s p q hp hq
  rw [exec_peq_ok hp hq]
  refine ⟨fun h => ?_, fun h => ?_⟩
  · rw [ptEq, decide_eq_true h]
    rfl
  · rw [ptEq, decide_eq_false h]
    rfl

/-- Settles O28: the two constants are below `P`, so normalisation leaves them. -/
theorem ldgResult : Obligations.LdgResult := fun _ _ =>
  ⟨_, _, normFe_natCast_val (n := Config.Gx) (by decide), normFe_natCast_val (n := Config.Gy) (by decide), rfl⟩

end Sys2Proof.Machine
end

section
/-! SUPPORT. Why a scan meets no `InvalidPoint` (42_scalar_mul.md R174): the formulas of point addition do not name the constant of the
curve, so they keep every curve `y² = x³ + c`; each point lies on one of them, and on one curve no two points clash. -/

namespace Sys2Proof.Machine

/-! ### The curves -/

/-- The curve `y² = x³ + c` with its point at infinity; the block's own has `c = 7` (00_scope.md R6). -/
def OnCurve (c : ZMod Config.P) : Point → Prop
  | .infinity => True
  | .finite x y => toZ y ^ 2 = toZ x ^ 3 + c

@[simp] theorem onCurve_infinity (c : ZMod Config.P) : OnCurve c .infinity := trivial

@[simp] theorem onCurve_finite {c : ZMod Config.P} {x y : Fe} :
    OnCurve c (.finite x y) ↔ toZ y ^ 2 = toZ x ^ 3 + c := Iff.rfl

theorem exists_onCurve (p : Point) : ∃ c, OnCurve c p := by
  cases p with
  | infinity => exact ⟨0, onCurve_infinity 0⟩
  | finite x y => exact ⟨toZ y ^ 2 - toZ x ^ 3, (add_sub_cancel _ _).symm⟩

/-! ### The line through two points of a curve -/

/-- A line of slope `l` through `(x1, y1)` meets the curve again at `x2`, and so at a third point, which `finish(lam)` of
41_point.md R151 reflects. `hslope` says that `x2` is a root of the line and the curve, for a chord and for a tangent (`x2 = x1`). -/
theorem reflected_third_point {R : Type} [CommRing R] {c l x1 y1 x2 x3 y3 : R} (hp : y1 ^ 2 = x1 ^ 3 + c)
    (hslope : l * (2 * y1) + l ^ 2 * (x2 - x1) = x1 ^ 2 + x1 * x2 + x2 ^ 2)
    (hx3 : x3 + x1 + x2 = l * l) (hy3 : y3 + y1 + l * x3 = l * x1) : y3 ^ 2 = x3 ^ 3 + c := by
  obtain rfl : y3 = l * (x1 - x3) - y1 := by linear_combination hy3
  linear_combination hp + (x3 - x1) * hslope - (x3 - x1) * (x3 - x2) * hx3

theorem onCurve_of_tangentPoint {c : ZMod Config.P} {x y x3 y3 : Fe} (hp : OnCurve c (.finite x y))
    (h : TangentPoint x.val y.val x3.val y3.val) : OnCurve c (.finite x3 y3) := by
  obtain ⟨l, hlam, hx3, hy3⟩ := h
  simp only [← ZMod.natCast_eq_natCast_iff', Nat.cast_add, Nat.cast_mul, Nat.cast_ofNat] at hlam hx3 hy3
  refine reflected_third_point (x2 := toZ x) hp ?_ ?_ hy3
  · unfold toZ
    linear_combination hlam
  · unfold toZ
    linear_combination hx3

theorem onCurve_of_chordPoint {c : ZMod Config.P} {px py qx qy x3 y3 : Fe} (hne : px ≠ qx) (hp : OnCurve c (.finite px py))
    (hq : OnCurve c (.finite qx qy)) (h : ChordPoint px.val py.val qx.val qy.val x3.val y3.val) :
    OnCurve c (.finite x3 y3) := by
  have := fact_prime_P
  obtain ⟨l, hlam, hx3, hy3⟩ := h
  simp only [← ZMod.natCast_eq_natCast_iff', Nat.cast_add, Nat.cast_mul] at hlam hx3 hy3
  have hdx : toZ qx - toZ px ≠ 0 := sub_ne_zero.2 (mt toZ_injective hne.symm)
  refine reflected_third_point (x2 := toZ qx) hp (mul_left_cancel₀ hdx ?_) hx3 hy3
  rw [onCurve_finite] at hp hq
  unfold toZ at hp hq ⊢
  linear_combination (l * ((qx.val : ZMod Config.P) - px.val) + py.val + qy.val) * hlam + hq - hp

/-! ### Addition keeps every curve -/

/-- A set of points that addition keeps, without a fault. -/
def ClosedUnderAdd (S : Point → Prop) : Prop :=
  ∀ p q, S p → S q → ∃ r, ptAdd p q = .ok r ∧ S r

theorem closedUnderAdd_infinity : ClosedUnderAdd (· = .infinity) := by
  rintro p q rfl rfl
  exact ⟨.infinity, ptAdd_infinity_left _, rfl⟩

/-- On one curve two points with the same `x` are equal or opposite. -/
theorem eq_or_eq_feNeg_of_onCurve {c : ZMod Config.P} {x py qy : Fe} (hp : OnCurve c (.finite x py))
    (hq : OnCurve c (.finite x qy)) : py = qy ∨ py = feNeg qy := by
  have := fact_prime_P
  rw [onCurve_finite] at hp hq
  rw [← toZ_inj, ← toZ_inj, toZ_feNeg]
  exact sq_eq_sq_iff_eq_or_eq_neg.1 (hp.trans hq.symm)

/-- The cases of an addition that are left on one curve (42_scalar_mul.md R174). -/
theorem closedUnderAdd_onCurve (c : ZMod Config.P) : ClosedUnderAdd (OnCurve c) := by
  intro p q hp hq
  match p, q with
  | .infinity, q => exact ⟨q, ptAdd_infinity_left q, hq⟩
  | p, .infinity => exact ⟨p, ptAdd_infinity_right p, hp⟩
  | .finite px py, .finite qx qy =>
    by_cases hx : px = qx
    · subst hx
      by_cases hneg : py = feNeg qy
      · exact ⟨.infinity, ptAdd_inverse px hneg, onCurve_infinity c⟩
      · obtain rfl : py = qy := (eq_or_eq_feNeg_of_onCurve hp hq).resolve_right hneg
        obtain ⟨x3, y3, hadd, htan⟩ := ptAdd_tangent px (mt eq_feNeg_self_iff.2 hneg)
        exact ⟨_, hadd, onCurve_of_tangentPoint hp htan⟩
    · obtain ⟨lam, hlam⟩ := exists_chordSlope hx py qy
      obtain ⟨x3, y3, hend, hchord⟩ := chordEnd_chordPoint hlam
      exact ⟨_, hend ▸ ptAdd_chord hx hlam, onCurve_of_chordPoint hx hp hq hchord⟩

namespace ClosedUnderAdd

variable {S : Point → Prop} (hS : ClosedUnderAdd S)
include hS

theorem ptDouble {p : Point} (hp : S p) : S (ptDouble p) := by
  obtain ⟨r, hadd, hr⟩ := hS p p hp hp
  exact (ptDouble_eq hadd).symm ▸ hr

theorem iterate_ptDouble {p : Point} (hp : S p) (n : Nat) : S (Machine.ptDouble^[n] p) := by
  induction n with
  | zero => exact hp
  | succ n ih => exact Function.iterate_succ_apply' Machine.ptDouble n p ▸ hS.ptDouble ih

/-- A sum of points of the set, from the left, is a point of the set. -/
theorem foldlM_ptAdd {ι : Type} {f : ι → Point} (hf : ∀ i, S (f i)) (l : List ι) {acc : Point} (hacc : S acc) :
    ∃ r, l.foldlM (fun acc i => ptAdd acc (f i)) acc = .ok r ∧ S r := by
  induction l generalizing acc with
  | nil => exact ⟨acc, rfl, hacc⟩
  | cons i l ih =>
    obtain ⟨r, hadd, hr⟩ := hS acc (f i) hacc (hf i)
    rw [List.foldlM_cons, hadd]
    exact ih hr

end ClosedUnderAdd

end Sys2Proof.Machine
end

section
/-! SUPPORT. Scalar multiplication as a sum of doublings, and the command SMUL (42_scalar_mul.md R170 to R175): how it ends for every
scalar, and the obligations, which name the point. -/

namespace Sys2Proof.Machine

/-! ### The table and the scan (42_scalar_mul.md R170, R171) -/

theorem doublings_eq_map (n : Nat) (base : Point) : doublings n base = (List.range n).map fun i => ptDouble^[i] base := by
  induction n generalizing base with
  | zero => rfl
  | succ n ih =>
    rw [doublings, ih, List.range_succ_eq_map, List.map_cons, List.map_map]
    rfl

theorem tbl_eq_map (base : Point) : tbl base = (List.range 256).map fun i => ptDouble^[i] base :=
  doublings_eq_map 256 base

/-- The scan of `n` entries from bit `i` on is the sum of those at the set bits. -/
theorem scanBits_eq_foldlM (k : Scalar) (f : Nat → Point) (n i : Nat) (acc : Point) :
    scanBits k i acc ((List.range' i n).map f) =
      ((List.range' i n).filter fun j => k.getLsbD j).foldlM (fun acc j => ptAdd acc (f j)) acc := by
  induction n generalizing i acc with
  | zero => rfl
  | succ n ih =>
    rw [List.range'_succ, List.map_cons, scanBits]
    by_cases hbit : k.getLsbD i = true
    · rw [if_pos hbit, List.filter_cons_of_pos hbit, List.foldlM_cons]
      exact congrArg (ptAdd acc (f i)).bind (funext fun r => ih (i + 1) r)
    · rw [if_neg hbit, List.filter_cons_of_neg hbit, ih]

/-- The sum, from Infinity and from the left, of the doublings at the set bits of a scalar in rising order (42_scalar_mul.md R171). -/
def sumOfDoublings (n : Scalar) (base : Point) : Res Point :=
  ((List.range 256).filter fun i => n.getLsbD i).foldlM (fun acc i => ptAdd acc (ptDouble^[i] base)) .infinity

theorem scanBits_tbl (n : Scalar) (base : Point) : scanBits n 0 .infinity (tbl base) = sumOfDoublings n base := by
  rw [tbl_eq_map, List.range_eq_range', scanBits_eq_foldlM, sumOfDoublings, List.range_eq_range']

theorem scalarMulWith_error {n : Scalar} (h : n.toNat = 0 ∨ Config.N ≤ n.toNat) (table : List Point) :
    scalarMulWith n table = .error .invalidScalar := if_pos h

theorem scalarMul_of_valid {n : Scalar} (h1 : 1 ≤ n.toNat) (hN : n.toNat < Config.N) (base : Point) :
    scalarMul n base = sumOfDoublings n base := by
  rw [scalarMul, scalarMulWith, if_neg (by omega), scanBits_tbl]

/-- The multiple of a point of a set that addition keeps is a point of the set. -/
theorem ClosedUnderAdd.scalarMul {S : Point → Prop} (hS : ClosedUnderAdd S) (h0 : S .infinity) {base : Point} (hb : S base)
    {n : Scalar} (h1 : 1 ≤ n.toNat) (hN : n.toNat < Config.N) : ∃ r, scalarMul n base = .ok r ∧ S r := by
  rw [scalarMul_of_valid h1 hN]
  exact hS.foldlM_ptAdd (hS.iterate_ptDouble hb) _ h0

/-- No scan meets `InvalidPoint`: it stays on the curve of its base point (42_scalar_mul.md R174). -/
theorem exists_scalarMul {n : Scalar} (h1 : 1 ≤ n.toNat) (hN : n.toNat < Config.N) (base : Point) :
    ∃ r, scalarMul n base = .ok r := by
  obtain ⟨c, hc⟩ := exists_onCurve base
  obtain ⟨r, hr, -⟩ := (closedUnderAdd_onCurve c).scalarMul (onCurve_infinity c) hc h1 hN
  exact ⟨r, hr⟩

/-! ### Small scalars (42_scalar_mul.md R175) -/

theorem scalarMul_one (base : Point) : scalarMul 1#256 base = .ok base := by
  have hbits : ((List.range 256).filter fun i => (1#256 : Scalar).getLsbD i) = [0] := by decide
  rw [scalarMul_of_valid (by decide) (by decide), sumOfDoublings, hbits]
  rfl

theorem scalarMul_two (base : Point) : scalarMul 2#256 base = .ok (ptDouble base) := by
  have hbits : ((List.range 256).filter fun i => (2#256 : Scalar).getLsbD i) = [1] := by decide
  rw [scalarMul_of_valid (by decide) (by decide), sumOfDoublings, hbits]
  rfl

theorem scalarMul_infinity {n : Scalar} (h1 : 1 ≤ n.toNat) (hN : n.toNat < Config.N) : scalarMul n .infinity = .ok .infinity := by
  obtain ⟨r, hr, rfl⟩ := closedUnderAdd_infinity.scalarMul rfl rfl h1 hN
  exact hr

/-! ### How the command ends -/

section
variable {s : State} {b : QReg} {k : KReg} {base : Point} {n : Scalar} (hb : regQ s b = some base) (hn : regK s k = some n)
include hb hn

/-- With valid sources SMUL completes with what the multiplication answers. -/
theorem exec_smul_of_sources (d : QReg) :
    exec (.smul d b k) s = finish ((scalarMulWith n (smulTable s.utbl base)).bind fun r =>
      .ok (setQ { s with utbl := smulCache s.utbl base } d r)) s := by
  rw [exec, execSmul, needQ_ok hb, needK_ok hn, res_bind_ok, res_bind_ok]

theorem exec_smul_invalidScalar (h : n.toNat = 0 ∨ Config.N ≤ n.toNat) (d : QReg) :
    exec (.smul d b k) s = .next (raiseFault .invalidScalar s) := by
  rw [exec_smul_of_sources hb hn, scalarMulWith_error h, res_bind_error, finish_error]

theorem exec_smul_ok (hc : CacheCoherent s) {r : Point} (h : scalarMul n base = .ok r) (d : QReg) :
    exec (.smul d b k) s = .next (completeOk (setQ { s with utbl := smulCache s.utbl base } d r)) := by
  rw [exec_smul_of_sources hb hn, smulTable_eq_tbl hc, ← scalarMul, h, res_bind_ok, finish_ok]

end

/-! ### The obligations -/

/-- Settles O29: the range test comes before the scan, so the table does not matter. -/
theorem smulInvalidScalar : Obligations.SmulInvalidScalar :=
  fun d _ _ _ _ _ hb hn h => exec_smul_invalidScalar hb hn h d

/-- Settles O30: the table is the list of the doublings, and the scan of it the sum at the set bits. -/
theorem scalarMulSumsDoublings : Obligations.ScalarMulSumsDoublings := by
  intro n base
  refine ⟨?_, fun i hi => ?_, ?_⟩
  · rw [tbl_eq_map, List.length_map, List.length_range]
  · rw [tbl_eq_map, List.getElem?_map, List.getElem?_range hi, Option.map_some]
  · split_ifs with h
    · exact scalarMulWith_error h _
    · exact scalarMul_of_valid (by omega) (by omega) base

/-- Settles O31: the scan stays on the curve of its base point, where no addition faults. -/
theorem smulCompletes : Obligations.SmulCompletes := by
  intro d b k s base n hc hb hn h1 hN
  obtain ⟨r, hr⟩ := exists_scalarMul h1 hN base
  exact ⟨r, hr, exec_smul_ok hb hn hc hr d⟩

/-- Settles O32: the scalars 1 and 2 have one set bit, and Infinity alone is closed under addition. -/
theorem smulCornerCases : Obligations.SmulCornerCases := by
  intro d b k s base n hc hb hn
  refine ⟨fun h => ?_, fun h => ?_, ?_⟩
  · obtain rfl : n = 1#256 := BitVec.eq_of_toNat_eq h
    exact exec_smul_ok hb hn hc (scalarMul_one base) d
  · obtain rfl : n = 2#256 := BitVec.eq_of_toNat_eq h
    exact exec_smul_ok hb hn hc (scalarMul_two base) d
  · rintro rfl h1 hN
    exact exec_smul_ok hb hn hc (scalarMul_infinity h1 hN) d

end Sys2Proof.Machine
end

section
/-! SUPPORT. Base58 as positional numerals (43_base58check.md R190 to R198): the digits are the library's digits in base 58, leading
zero bytes and the value determine a byte string, and both are read off the characters. Then how the two commands end, and the
obligations. -/

namespace Sys2Proof.Machine

/-! ### Digits (43_base58check.md R191) -/

/-- Rounds that suffice for the value give its base-58 digits. -/
theorem map_val_digitLoop {n v : Nat} (h : v < 2 ^ n) : (digitLoop n v).map Fin.val = Nat.digits 58 v := by
  induction n generalizing v with
  | zero =>
    obtain rfl : v = 0 := by simpa using h
    simp [digitLoop]
  | succ n ih =>
    rw [digitLoop]
    split
    · next h0 => simp [h0]
    · next h0 =>
      have hdiv : v / 58 < 2 ^ n := by rw [pow_succ] at h; omega
      rw [List.map_cons, ih hdiv, Nat.digits_def' (by decide) (Nat.pos_of_ne_zero h0)]

/-- The digits are the library's, least significant first. -/
theorem map_val_digits (v : Nat) : (digits v).map Fin.val = Nat.digits 58 v :=
  map_val_digitLoop Nat.lt_log2_self

theorem digits_of_pos {v : Nat} (h : 0 < v) : digits v = ⟨v % 58, Nat.mod_lt v (by decide)⟩ :: digits (v / 58) := by
  refine List.map_injective_iff.2 Fin.val_injective ?_
  rw [List.map_cons, map_val_digits, map_val_digits, Nat.digits_def' (by decide) h]

/-! ### Leading zero bytes and the value of a byte string (43_base58check.md R192) -/

/-- The leading zero bytes and the bytes of the value make up a byte string. -/
theorem length_eq_leadingZeros_add (bs : List Byte) :
    bs.length = leadingZeros bs + (Nat.digits 256 (be bs)).length := by
  induction bs with
  | nil => simp [leadingZeros, be]
  | cons b rest ih =>
    by_cases hb : b = 0x00#8
    · have hv : be (b :: rest) = be rest := by simp [be, hb]
      rw [List.length_cons, ih, leadingZeros, if_pos hb, hv, Nat.add_right_comm]
    · have hpos : 0 < b.toNat := Nat.pos_of_ne_zero fun h0 => hb (BitVec.eq_of_toNat_eq h0)
      have hge : 256 ^ rest.length ≤ be (b :: rest) := (Nat.le_mul_of_pos_left _ hpos).trans (Nat.le_add_right _ _)
      have hlow := (Nat.lt_digits_length_iff (by decide) (be (b :: rest))).2 hge
      have hhigh := (Nat.digits_length_le_iff (by decide) (be (b :: rest))).2 (be_lt (b :: rest))
      rw [leadingZeros, if_neg hb, Nat.zero_add]
      rw [List.length_cons] at hhigh ⊢
      omega

/-- A byte string is its leading zero bytes and its value. -/
theorem eq_of_leadingZeros_of_be {x y : List Byte} (hz : leadingZeros x = leadingZeros y) (hv : be x = be y) : x = y := by
  have hlen : x.length = y.length := by rw [length_eq_leadingZeros_add x, length_eq_leadingZeros_add y, hz, hv]
  rw [← beBytes_be x, ← beBytes_be y, hlen, hv]

/-! ### The conversion (43_base58check.md R190, R193) -/

theorem alph_injective : Function.Injective alph := by
  unfold Function.Injective
  decide

/-- The positions in the alphabet of the characters of a conversion. -/
def b58Positions (payload : List Byte) : List (Fin 58) :=
  List.replicate (leadingZeros payload) 0 ++ (digits (be payload)).reverse

theorem b58Encode_eq_map (payload : List Byte) : b58Encode payload = (b58Positions payload).map alph := by
  rw [b58Encode, b58Positions, List.map_append, List.map_replicate]

/-- Read as a number, most significant digit first, the characters are the payload's value: a `'1'` in front adds nothing. -/
theorem ofDigits_b58Positions (payload : List Byte) :
    Nat.ofDigits 58 ((b58Positions payload).reverse.map Fin.val) = be payload := by
  rw [b58Positions, List.reverse_append, List.reverse_reverse, List.reverse_replicate, List.map_append, List.map_replicate,
    map_val_digits]
  exact (Nat.ofDigits_append_replicate_zero _).trans (Nat.ofDigits_digits 58 _)

/-- The characters give back the value, and with it the number of `'1'`s in front (43_base58check.md R198). -/
theorem b58Encode_injective : Function.Injective b58Encode := by
  intro x y h
  rw [b58Encode_eq_map, b58Encode_eq_map] at h
  have hpos : b58Positions x = b58Positions y := List.map_injective_iff.2 alph_injective h
  have hv : be x = be y := by rw [← ofDigits_b58Positions x, ← ofDigits_b58Positions y, hpos]
  have hlen : leadingZeros x + (digits (be x)).length = leadingZeros y + (digits (be y)).length := by
    simpa [b58Positions] using congrArg List.length hpos
  rw [hv] at hlen
  exact eq_of_leadingZeros_of_be (Nat.add_right_cancel hlen) hv

/-- The checksum has a fixed length, so the payload is what precedes it (43_base58check.md R198). -/
theorem b58Check_injective : Function.Injective b58Check := by
  intro x y h
  have hframed : x ++ checksum x = y ++ checksum y := b58Encode_injective h
  exact List.append_inj_left' hframed (by rw [checksum_length, checksum_length])

/-- A zero byte in front is one more `'1'`. -/
theorem b58Encode_zero_cons (rest : List Byte) : b58Encode (0x00#8 :: rest) = 0x31#8 :: b58Encode rest := by
  have hv : be (0x00#8 :: rest) = be rest := by simp [be]
  have hz : leadingZeros (0x00#8 :: rest) = leadingZeros rest + 1 := if_pos rfl
  rw [b58Encode, hv, hz, List.replicate_succ]
  rfl

theorem b58Encode_replicate_zero_append (z : Nat) (rest : List Byte) :
    b58Encode (List.replicate z 0x00#8 ++ rest) = List.replicate z 0x31#8 ++ b58Encode rest := by
  induction z with
  | zero => rfl
  | succ z ih => rw [List.replicate_succ, List.cons_append, b58Encode_zero_cons, ih]; rfl

theorem b58Encode_of_head_ne_zero {b : Byte} (hb : b ≠ 0x00#8) (rest : List Byte) :
    b58Encode (b :: rest) = (digits (be (b :: rest))).reverse.map alph := by
  rw [b58Encode, leadingZeros, if_neg hb]
  rfl

/-! ### How the commands end (43_base58check.md R194, R195) -/

section
variable {limit dst src len : Nat} {conv : List Byte → List Byte} {s : State}

theorem base58Command_ok (hlen : len ≤ limit) (hsrc : src + len ≤ Config.bufSize)
    (hdst : dst + (conv (bytesAt s.buf src len)).length ≤ Config.bufSize) :
    base58Command limit conv dst src len s =
      .next (completeOk { s with
        buf := setBytes s.buf dst (conv (bytesAt s.buf src len)),
        rlen := BitVec.ofNat 8 (conv (bytesAt s.buf src len)).length }) := by
  rw [base58Command, if_neg (by omega), memRead_ok hsrc, res_bind_ok, storeBytes_ok hdst, res_bind_ok, finish_ok]

/-- Each of the three range checks fails with the same fault (60_exceptions.md R239). -/
theorem base58Command_bufferRange (h : limit < len ∨ Config.bufSize < src + len ∨
      Config.bufSize < dst + (conv (bytesAt s.buf src len)).length) :
    base58Command limit conv dst src len s = .next (raiseFault .bufferRange s) := by
  rw [base58Command]
  by_cases hlen : limit < len
  · rw [if_pos hlen, finish_error]
  · rw [if_neg hlen]
    by_cases hsrc : Config.bufSize < src + len
    · rw [memRead_error hsrc, res_bind_error, finish_error]
    · have hdst := (h.resolve_left hlen).resolve_left hsrc
      rw [memRead_ok (by omega), res_bind_ok, storeBytes_error hdst, res_bind_error, finish_error]

end

/-! ### The obligations -/

/-- Settles O34: both parts are facts about 58 bytes. -/
theorem alphabetSpelled : Obligations.AlphabetSpelled :=
  ⟨by decide, alph_injective⟩

/-- Settles O35: the digits are those of base 58, and each zero byte in front adds a `'1'`. -/
theorem base58ByDivision : Obligations.Base58ByDivision := by
  refine ⟨rfl, fun v hv => ⟨_, rfl, digits_of_pos hv⟩, fun z b rest hb => ?_, fun z => ?_⟩
  · rw [b58Encode_replicate_zero_append, b58Encode_of_head_ne_zero hb]
  · have hnil : b58Encode [] = [] := rfl
    simpa [hnil] using b58Encode_replicate_zero_append z []

/-- Settles O36: the checks pass, and the framed payload is what B58CHK converts. -/
theorem base58Results : Obligations.Base58Results := by
  refine fun dst src len s hsrc => ⟨fun hlen hdst => base58Command_ok hlen hsrc hdst, ?_⟩
  rintro _ rfl hlen hdst
  exact base58Command_ok (conv := b58Check) hlen hsrc hdst

/-- Settles O37: one shared command, whose checks all fail with `BufferRange`. -/
theorem base58RangeFaults : Obligations.Base58RangeFaults :=
  fun _ _ _ _ => ⟨base58Command_bufferRange, base58Command_bufferRange⟩

/-- Settles O38: `256 ^ 64 ≤ 58 ^ 88` bounds the digits, and the largest payload attains the bound. -/
theorem base58LengthBound : Obligations.Base58LengthBound :=
  ⟨fun _ h => b58Encode_length_le h, by decide +kernel⟩

/-- Settles O39: the value and the number of `'1'`s are read off the characters. -/
theorem base58Injective : Obligations.Base58Injective :=
  ⟨fun _ _ h => b58Encode_injective h, fun _ _ h => b58Check_injective h⟩

end Sys2Proof.Machine
end

section
/-! SUPPORT. The transfer and system commands (44_transfer_system.md R210 to R219): the stored form of a point and its parse, one
equation for each way a load or a store ends, and the obligations. -/

namespace Sys2Proof.Machine

/-! ### Stored forms (44_transfer_system.md R211, R213, R216, R217) -/

/-- The integer of an element is accepted as that element (44_transfer_system.md R211). -/
theorem feOfNat_of_val {v : Fe} {n : Nat} (h : v.val = n) : feOfNat n = .ok v := by
  subst h
  exact feOfNat_ok v.isLt

/-- 32 bytes of `BUF` are an integer a `K` register can hold (44_transfer_system.md R213). -/
theorem be_bytesAt_32_lt (m : Memory) (off : Nat) : be (bytesAt m off 32) < 2 ^ 256 :=
  (be_lt _).trans_eq (by rw [bytesAt_length]; norm_num)

theorem fe_val_lt (v : Fe) : v.val < 2 ^ 256 :=
  v.isLt.trans (by decide)

/-- The integer of an element, as a `K` register holds it (44_transfer_system.md R219). -/
def scalarOf (v : Fe) : Scalar := BitVec.ofNat 256 v.val

theorem scalarOf_toNat (v : Fe) : (scalarOf v).toNat = v.val := by
  rw [scalarOf, BitVec.toNat_ofNat, Nat.mod_eq_of_lt (fe_val_lt v)]

/-- An element's 32 bytes have its integer as their value (44_transfer_system.md R219). -/
theorem be_bytes32_val (v : Fe) : be (bytes32 v.val) = v.val := be_bytes32 (fe_val_lt v)

/-- The 65 bytes of a stored point: the tag and the two coordinates (44_transfer_system.md R216). -/
theorem bytesAt_65 (m : Memory) (off : Nat) :
    bytesAt m off 65 = byteAt m off :: (bytesAt m (off + 1) 32 ++ bytesAt m (off + 33) 32) := by
  rw [bytesAt, bytesAt_add m (off + 1) 32 32]

theorem pointBytes_infinity : pointBytes .infinity = List.replicate 65 0x00#8 := by
  rw [List.replicate_succ, pointBytes, tagInfinity]

theorem pointBytes_finite (x y : Fe) : pointBytes (.finite x y) = 0x01#8 :: (bytes32 x.val ++ bytes32 y.val) := by
  rw [pointBytes, tagFinite]

theorem pointOfBytes_infinity (rest : List Byte) : pointOfBytes (0x00#8 :: rest) = .ok .infinity := by
  rw [pointOfBytes, tagInfinity, if_pos rfl]

theorem pointOfBytes_finite {x y : Fe} {xs ys : List Byte} (hlen : xs.length = 32) (hx : x.val = be xs) (hy : y.val = be ys) :
    pointOfBytes (0x01#8 :: (xs ++ ys)) = .ok (.finite x y) := by
  rw [pointOfBytes, if_neg (by decide), tagFinite, if_pos rfl, List.take_left' hlen, List.drop_left' hlen, feOfNat_of_val hx,
    feOfNat_of_val hy, res_bind_ok, res_bind_ok]

/-- The stored form of a point stands for that point (44_transfer_system.md R219). -/
theorem pointOfBytes_pointBytes (p : Point) : pointOfBytes (pointBytes p) = .ok p := by
  cases p with
  | infinity => exact pointOfBytes_infinity _
  | finite x y => exact pointOfBytes_finite (bytes32_length _) (be_bytes32_val x).symm (be_bytes32_val y).symm

/-- A byte string of known length reads back as it was stored. -/
theorem bytesAt_setBytes_of_length {m : Memory} (h : Memory.wf m = true) {off n : Nat} {bs : List Byte} (hlen : bs.length = n)
    (hin : off + n ≤ Config.bufSize) : bytesAt (setBytes m off bs) off n = bs := by
  subst hlen
  exact bytesAt_setBytes h hin

/-- Stored and read back, an element's bytes still have its integer as their value (44_transfer_system.md R219). -/
theorem be_stored_val {m : Memory} (h : Memory.wf m = true) {off : Nat} (hin : off + 32 ≤ Config.bufSize) (v : Fe) :
    be (bytesAt (setBytes m off (bytes32 v.val)) off 32) = v.val := by
  rw [bytesAt_setBytes_of_length h (bytes32_length _) hin, be_bytes32_val]

/-! ### Loads (44_transfer_system.md R211, R213, R217) -/

/-- A completed load of a `K` register: the register holds the integer. -/
theorem regK_completeOk_setK (s : State) (d : KReg) (v : Scalar) : regK (completeOk (setK s d v)) d = some v := by
  rw [regK_congr (completeOk_k _), regK_setK, if_pos rfl]

/-- A completed load of a `Q` register: the register holds the point. -/
theorem regQ_completeOk_setQ (s : State) (d : QReg) (v : Point) : regQ (completeOk (setQ s d v)) d = some v := by
  rw [regQ_congr (completeOk_q _), regQ_setQ, if_pos rfl]

section
variable {s : State} {off : Nat}

theorem exec_ldf_ok (hin : off + 32 ≤ Config.bufSize) {v : Fe} (hv : v.val = be (bytesAt s.buf off 32)) (r : FReg) :
    exec (.ldf r off) s = .next (completeOk (setF s r v)) := by
  rw [exec, execLdf, memRead_ok hin, res_bind_ok, feOfNat_of_val hv, res_bind_ok, finish_ok]

theorem exec_ldk_ok (hin : off + 32 ≤ Config.bufSize) {v : Scalar} (hv : v.toNat = be (bytesAt s.buf off 32)) (r : KReg) :
    exec (.ldk r off) s = .next (completeOk (setK s r v)) := by
  rw [exec, execLdk, memRead_ok hin, res_bind_ok, ← hv, BitVec.ofNat_toNat, BitVec.setWidth_eq, finish_ok]

theorem exec_ldp_ok (hin : off + 65 ≤ Config.bufSize) {p : Point} (hp : pointOfBytes (bytesAt s.buf off 65) = .ok p)
    (r : QReg) : exec (.ldp r off) s = .next (completeOk (setQ s r p)) := by
  rw [exec, execLdp, memRead_ok hin, res_bind_ok, hp, res_bind_ok, finish_ok]

/-- A load that would leave `BUF` ends with `BufferRange`, whatever it makes of the bytes (60_exceptions.md R239). -/
theorem finish_memRead_error {n : Nat} (hout : Config.bufSize < off + n) (f : List Byte → Res State) :
    finish ((memRead s.buf off n).bind f) s = .next (raiseFault .bufferRange s) := by
  rw [memRead_error hout, res_bind_error, finish_error]

/-! ### Stores (44_transfer_system.md R212, R214, R218) -/

/-- A store inside `BUF` completes in the state it started from, with the bytes stored (20_memory.md R66). -/
theorem finish_storeBytes_ok {bs : List Byte} {n : Nat} (hlen : bs.length = n) (hin : off + n ≤ Config.bufSize) :
    finish (storeBytes s off bs) s = .next { s with buf := setBytes s.buf off bs, busy := false, done := true } := by
  subst hlen
  rw [storeBytes_ok hin, finish_ok, completeOk]

/-- A store that would leave `BUF` ends with `BufferRange` (60_exceptions.md R239). -/
theorem finish_storeBytes_error {bs : List Byte} {n : Nat} (hlen : bs.length = n) (hout : Config.bufSize < off + n) :
    finish (storeBytes s off bs) s = .next (raiseFault .bufferRange s) := by
  subst hlen
  rw [storeBytes_error hout, finish_error]

theorem exec_stf_of_source {r : FReg} {v : Fe} (h : regF s r = some v) :
    exec (.stf r off) s = finish (storeBytes s off (bytes32 v.val)) s := by
  rw [exec, execStf, needF_ok h, res_bind_ok]

theorem exec_stk_of_source {r : KReg} {v : Scalar} (h : regK s r = some v) :
    exec (.stk r off) s = finish (storeBytes s off (bytes32 v.toNat)) s := by
  rw [exec, execStk, needK_ok h, res_bind_ok]

theorem exec_stp_of_source {r : QReg} {p : Point} (h : regQ s r = some p) :
    exec (.stp r off) s = finish (storeBytes s off (pointBytes p)) s := by
  rw [exec, execStp, needQ_ok h, res_bind_ok]

theorem exec_stf_ok {r : FReg} {v : Fe} (h : regF s r = some v) (hin : off + 32 ≤ Config.bufSize) :
    exec (.stf r off) s = .next { s with buf := setBytes s.buf off (bytes32 v.val), busy := false, done := true } := by
  rw [exec_stf_of_source h, finish_storeBytes_ok (bytes32_length _) hin]

theorem exec_stk_ok {r : KReg} {v : Scalar} (h : regK s r = some v) (hin : off + 32 ≤ Config.bufSize) :
    exec (.stk r off) s = .next { s with buf := setBytes s.buf off (bytes32 v.toNat), busy := false, done := true } := by
  rw [exec_stk_of_source h, finish_storeBytes_ok (bytes32_length _) hin]

theorem exec_stp_ok {r : QReg} {p : Point} (h : regQ s r = some p) (hin : off + 65 ≤ Config.bufSize) :
    exec (.stp r off) s = .next { s with buf := setBytes s.buf off (pointBytes p), busy := false, done := true } := by
  rw [exec_stp_of_source h, finish_storeBytes_ok (pointBytes_length _) hin]

end

/-! ### The obligations -/

/-- Settles O46: the bytes stored are the bytes read, and their value is the element's integer, their parse the point. -/
theorem storeThenLoadRestores : Obligations.StoreThenLoadRestores := by
  refine fun off s hwf => ⟨fun r r' p hr hin => ?_, fun r r' v hr hin => ?_, fun r r' v hr hin => ?_⟩
  · refine ⟨_, _, exec_stp_ok hr hin, exec_ldp_ok hin ?_ r', by simp, regQ_completeOk_setQ _ r' p⟩
    rw [bytesAt_setBytes_of_length hwf (pointBytes_length p) hin, pointOfBytes_pointBytes]
  · refine ⟨_, _, exec_stf_ok hr hin, exec_ldf_ok hin ?_ r', by simp, regF_completeOk_setF _ r' v⟩
    rw [be_stored_val hwf hin]
  · refine ⟨_, _, scalarOf v, exec_stf_ok hr hin, exec_ldk_ok hin ?_ r', by simp,
      regK_completeOk_setK _ r' _, scalarOf_toNat v⟩
    rw [be_stored_val hwf hin, scalarOf_toNat]

/-- Settles O40: NOP is the completion alone. -/
theorem nopCompletes : Obligations.NopCompletes := fun s => finish_ok s s

/-- Settles O41: the range check passes, and the value is the one given. -/
theorem wordLoads : Obligations.WordLoads := fun off s hin =>
  ⟨fun r _ hv => exec_ldf_ok hin hv r, fun r _ hv => exec_ldk_ok hin hv r, be_bytesAt_32_lt s.buf off⟩

/-- Settles O42: the range check passes, and the tag says which point the bytes stand for. -/
theorem pointLoads : Obligations.PointLoads := by
  refine fun off s r hin => ⟨fun htag => exec_ldp_ok hin ?_ r, fun x y htag hx hy => exec_ldp_ok hin ?_ r⟩
  · rw [bytesAt_65, htag, pointOfBytes_infinity]
  · rw [bytesAt_65, htag, pointOfBytes_finite (bytesAt_length _ _ _) hx hy]

/-- Settles O44: the bytes stored are the stored form of the register's value. -/
theorem storeResults : Obligations.StoreResults := by
  refine fun off s => ⟨fun r v hr hin => exec_stf_ok hr hin, fun r v hr hin => exec_stk_ok hr hin, fun r hr hin => ?_,
    fun r x y hr hin => ?_⟩
  · rw [exec_stp_ok hr hin, pointBytes_infinity]
  · rw [exec_stp_ok hr hin, pointBytes_finite]

/-- Settles O45: 32 bytes from above 224 and 65 bytes from above 191 would leave `BUF`. -/
theorem transferRangeFaults : Obligations.TransferRangeFaults := by
  refine fun off s => ⟨fun hoff rf rk => ?_, fun hoff r => ?_⟩
  · have hout : Config.bufSize < off + 32 := by unfold Config.bufSize; omega
    exact ⟨finish_memRead_error hout _, finish_memRead_error hout _,
      fun _ hr => (exec_stf_of_source hr).trans (finish_storeBytes_error (bytes32_length _) hout),
      fun _ hr => (exec_stk_of_source hr).trans (finish_storeBytes_error (bytes32_length _) hout)⟩
  · have hout : Config.bufSize < off + 65 := by unfold Config.bufSize; omega
    exact ⟨finish_memRead_error hout _,
      fun _ hr => (exec_stp_of_source hr).trans (finish_storeBytes_error (pointBytes_length _) hout)⟩

end Sys2Proof.Machine
end

section
/-! SUPPORT. When a fault is raised (60_exceptions.md R236 to R240, R244): the illegal word, the invalid source, the bytes that are no
value of their register's type, and the obligations. -/

namespace Sys2Proof.Machine

/-! ### The fault entry names its fault (60_exceptions.md R231, R240) -/

theorem codeByte_injective : Function.Injective codeByte := by
  intro c d
  cases c <;> cases d <;> decide

theorem raiseFault_inj {c d : FaultCode} {s : State} : raiseFault c s = raiseFault d s ↔ c = d :=
  ⟨fun h => codeByte_injective (congrArg State.errcode h), fun h => h ▸ rfl⟩

/-! ### Invalid sources (60_exceptions.md R237) -/

/-- A result is the fault `UninitRegister` exactly when `valid` is false; a value leaves `ERR` as it is in `s`. -/
def UninitUnless (valid : Bool) (s : State) : Res State → Prop
  | .ok s' => valid = true ∧ s'.err = s.err
  | .error c => c = .uninitRegister ↔ valid = false

section
variable {s : State} {α : Type} {o : Option α} {f : α → Res State}

/-- A check of a source register comes before everything that can fault otherwise (60_exceptions.md R245). -/
theorem uninitUnless_need_bind {valid : Bool} (h : ∀ a, UninitUnless valid s (f a)) :
    UninitUnless (o.isSome && valid) s ((need o).bind f) := by
  cases o with
  | some a => exact h a
  | none => exact iff_of_true rfl rfl

/-- What has no source left to check. -/
theorem uninitUnless_true_of_answers {l : List FaultCode} {r : Res State} (h : Answers l (fun s' : State => s'.err = s.err) r)
    (hl : .uninitRegister ∉ l := by decide) : UninitUnless true s r := by
  cases r with
  | ok s' => exact ⟨rfl, h⟩
  | error c => exact iff_of_false (fun hc => hl (hc ▸ h)) Bool.noConfusion

theorem uninitUnless_need_bind_last {l : List FaultCode} (h : ∀ a, Answers l (fun s' : State => s'.err = s.err) (f a))
    (hl : .uninitRegister ∉ l := by decide) : UninitUnless o.isSome s ((need o).bind f) := by
  rw [← Bool.and_true o.isSome]
  exact uninitUnless_need_bind fun a => uninitUnless_true_of_answers (h a) hl

end

theorem finish_eq_uninitRegister_iff {valid : Bool} {s : State} {r : Res State} (hr : UninitUnless valid s r)
    (h0 : s.err = false) : finish r s = .next (raiseFault .uninitRegister s) ↔ valid = false := by
  cases r with
  | ok s' =>
    obtain ⟨rfl, herr⟩ := hr
    refine iff_of_false (fun h => ?_) Bool.noConfusion
    have ht : (completeOk s').err = true := congrArg State.err (Host.Outcome.next.inj h)
    rw [completeOk_err, herr, h0] at ht
    cases ht
  | error c =>
    rw [finish_error, Host.Outcome.next.injEq, raiseFault_inj]
    exact hr

/-- A command run in `s` ends with `UninitRegister` exactly when `valid` is false. -/
def ChecksSources (valid : Bool) (s : State) (o : Out) : Prop := ∃ r, o = finish r s ∧ UninitUnless valid s r

theorem fieldBinary_checksSources {op : Fe → Fe → Res Fe} (d a b : FReg) (s : State)
    (hop : ∀ x y, Answers [.invalidPoint] (fun _ => True) (op x y)) :
    ChecksSources ((regF s a).isSome && (regF s b).isSome) s (fieldBinary op d a b s) :=
  ⟨_, rfl, uninitUnless_need_bind fun x => uninitUnless_need_bind_last fun y => (hop x y).bind fun _ _ => rfl⟩

/-- A command whose row has no `UninitRegister` has no source to check (60_exceptions.md R244). -/
theorem checksSources_of_no_source {i : Instr} (s : State) (hl : .uninitRegister ∉ allowedFaults i := by simp [allowedFaults]) :
    ChecksSources true s (exec i s) := by
  obtain ⟨r, hr, ha⟩ := exec_faultsWithin i s
  exact ⟨r, hr, uninitUnless_true_of_answers ha hl⟩

/-- Every command checks the sources that the specification lists for it, and faults for no other register. -/
theorem exec_checksSources (i : Instr) (s : State) : ChecksSources (sourcesValid i s) s (exec i s) := by
  cases i with
  | nop => exact checksSources_of_no_source s
  | fadd d a b => exact fieldBinary_checksSources d a b s fun _ _ => trivial
  | fsub d a b => exact fieldBinary_checksSources d a b s fun _ _ => trivial
  | fmul d a b => exact fieldBinary_checksSources d a b s fun _ _ => trivial
  | fdiv d a b => exact fieldBinary_checksSources d a b s fun x y => answers_of_cases (feDiv_cases x y)
  | fpow d a e => exact ⟨_, rfl, uninitUnless_need_bind fun _ => uninitUnless_need_bind_last (l := []) fun _ => rfl⟩
  | finv d a =>
    exact ⟨_, rfl, uninitUnless_need_bind_last (l := [.invalidPoint]) fun x =>
      (answers_of_cases (feInv_cases x)).bind fun _ _ => rfl⟩
  | feq a b => exact ⟨_, rfl, uninitUnless_need_bind fun _ => uninitUnless_need_bind_last (l := []) fun _ => rfl⟩
  | padd d a b =>
    exact ⟨_, rfl, uninitUnless_need_bind fun p => uninitUnless_need_bind_last (l := [.invalidPoint]) fun q =>
      (answers_of_cases (ptAdd_cases p q)).bind fun _ _ => rfl⟩
  | pdbl d a => exact ⟨_, rfl, uninitUnless_need_bind_last (l := []) fun _ => rfl⟩
  | smul d b k =>
    exact ⟨_, rfl, uninitUnless_need_bind fun _ =>
      uninitUnless_need_bind_last (l := [.invalidScalar, .invalidPoint]) fun n =>
        (answers_scalarMulWith n _).bind fun _ _ => rfl⟩
  | peq a b => exact ⟨_, rfl, uninitUnless_need_bind fun _ => uninitUnless_need_bind_last (l := []) fun _ => rfl⟩
  | ldg d => exact checksSources_of_no_source s
  | ldf r off => exact checksSources_of_no_source s
  | stf r off => exact ⟨_, rfl, uninitUnless_need_bind_last (l := [.bufferRange]) fun _ => answers_storeBytes s _ _⟩
  | ldk r off => exact checksSources_of_no_source s
  | stk r off => exact ⟨_, rfl, uninitUnless_need_bind_last (l := [.bufferRange]) fun _ => answers_storeBytes s _ _⟩
  | ldp r off => exact checksSources_of_no_source s
  | stp r off => exact ⟨_, rfl, uninitUnless_need_bind_last (l := [.bufferRange]) fun _ => answers_storeBytes s _ _⟩
  | b58enc dst src len => exact checksSources_of_no_source s
  | b58chk dst src len => exact checksSources_of_no_source s

/-! ### Bytes that are no value (60_exceptions.md R238) -/

theorem pointOfBytes_bad_tag {tag : Byte} (h0 : tag ≠ 0x00#8) (h1 : tag ≠ 0x01#8) (rest : List Byte) :
    pointOfBytes (tag :: rest) = .error .operandRange := by
  rw [pointOfBytes, tagInfinity, if_neg h0, tagFinite, if_neg h1]

/-- The two coordinates are checked in order, but fault alike. -/
theorem pointOfBytes_bad_coordinate {xs ys : List Byte} (hlen : xs.length = 32) (h : Config.P ≤ be xs ∨ Config.P ≤ be ys) :
    pointOfBytes (0x01#8 :: (xs ++ ys)) = .error .operandRange := by
  rw [pointOfBytes, if_neg (by decide), tagFinite, if_pos rfl, List.take_left' hlen, List.drop_left' hlen]
  rcases feOfNat_cases (be xs) with ⟨hx, hok⟩ | ⟨-, hbad⟩
  · rw [hok, res_bind_ok, feOfNat_error (h.resolve_left (by omega)), res_bind_error]
  · rw [hbad, res_bind_error]

section
variable {s : State} {off : Nat}

theorem exec_ldf_operandRange (hin : off + 32 ≤ Config.bufSize) (hv : Config.P ≤ be (bytesAt s.buf off 32)) (r : FReg) :
    exec (.ldf r off) s = .next (raiseFault .operandRange s) := by
  rw [exec, execLdf, memRead_ok hin, res_bind_ok, feOfNat_error hv, res_bind_error, finish_error]

theorem exec_ldp_operandRange (hin : off + 65 ≤ Config.bufSize)
    (hp : pointOfBytes (bytesAt s.buf off 65) = .error .operandRange) (r : QReg) :
    exec (.ldp r off) s = .next (raiseFault .operandRange s) := by
  rw [exec, execLdp, memRead_ok hin, res_bind_ok, hp, res_bind_error, finish_error]

end

/-! ### The obligations -/

/-- Settles O10: the inversion of a command that sets `ERR` names a fault of its row. -/
theorem faultsAreOfTheTable : Obligations.FaultsAreOfTheTable := fun _ _ _ => exec_fault_allowed

/-- Settles O11: a command checks its sources before all else, and nothing after that raises code 6. -/
theorem uninitSourceFaults : Obligations.UninitSourceFaults := by
  intro i s h0
  obtain ⟨r, hr, hu⟩ := exec_checksSources i s
  rw [hr]
  exact finish_eq_uninitRegister_iff hu h0

/-- Settles O8: a ready block issues any word, and the engine's turn finds it undecodable. -/
theorem illegalWordFaultsAtCompletion : Obligations.IllegalWordFaultsAtCompletion := by
  intro s w e hw hb he
  have accepted := (issueAndLockOut w s).1 (by simp [ready, hb, he])
  exact ⟨_, accepted, rfl, rfl, engineTurn_illegal rfl hw⟩

/-- Settles O43: the read is inside `BUF`, and the bytes read stand for no value. -/
theorem loadsRefuseBadValues : Obligations.LoadsRefuseBadValues := by
  refine fun off s => ⟨fun r hin hv => exec_ldf_operandRange hin hv r, fun r hin h => exec_ldp_operandRange hin ?_ r⟩
  rw [bytesAt_65]
  rcases h with ⟨h0, h1⟩ | ⟨htag, hcoord⟩
  · exact pointOfBytes_bad_tag h0 h1 _
  · rw [htag, pointOfBytes_bad_coordinate (bytesAt_length _ _ _) hcoord]

end Sys2Proof.Machine
end

section
/-! SUPPORT. A command that runs comes to an end (70_reset_and_hazards.md R272, R285, R286): what one step of a busy block can do, and
the run of its schedule. -/

namespace Sys2Proof.Machine

/-! ### One step of a busy block -/

/-- An access that resets the block is an accepted write of `CTRL` with `SRST = 1` (70_reset_and_hazards.md R270). -/
theorem hostAccess_of_resetsBlock {x : Access} (hx : resetsBlock (.access x) = true) (s : State) :
    hostAccess x s = { resetBlock s with resp := some .okWrite } := by
  obtain ⟨width, addr, kind⟩ := x
  cases kind with
  | read => cases hx
  | write d =>
    simp only [resetsBlock, Bool.and_eq_true, decide_eq_true_eq] at hx
    obtain ⟨⟨rfl, rfl⟩, hsrst⟩ := hx
    rw [hostAccess_write (busWrite_ctrl d s), ctrlWrite_srst hsrst]

/-- A step of a busy block completes the command, or is the reset that abandons it, or takes from the schedule an access that leaves
it running. -/
theorem step_of_busy_cases {s t : State} (hb : s.busy = true) (h : step s = .next t) :
    (t.busy = false ∧ t.done = true ∧ t.cmd = s.cmd) ∨
    (t.busy = false ∧ ∃ e ∈ s.sched, resetsBlock e = true) ∨
    (t.busy = true ∧ t.cmd = s.cmd ∧ ∃ e, s.sched = e :: t.sched) := by
  cases hs : s.sched with
  | nil =>
    rw [step_of_sched_nil hs] at h
    exact .inl (engineTurn_completes hb h)
  | cons e rest =>
    rw [step_of_sched_cons hs] at h
    cases e with
    | engine => exact .inl (engineTurn_completes (s := { s with sched := rest }) hb h)
    | hardReset =>
      obtain rfl : resetBlock { s with sched := rest } = t := by simpa using h
      exact .inr (.inl ⟨rfl, .hardReset, List.mem_cons_self, rfl⟩)
    | access x =>
      obtain rfl : hostAccess x { s with sched := rest } = t := by simpa using h
      cases hx : resetsBlock (.access x) with
      | true =>
        rw [hostAccess_of_resetsBlock hx]
        exact .inr (.inl ⟨rfl, .access x, List.mem_cons_self, hx⟩)
      | false =>
        obtain ⟨_, _, _, _, _, _, _, hrun⟩ := hostAccess_while_busy (s := { s with sched := rest }) hb hx
        rw [hrun]
        exact .inr (.inr ⟨hb, rfl, .access x, rfl⟩)

/-! ### The obligation -/

/-- Settles O58, by induction on the events still to come: a step that neither completes nor abandons the command takes one of them. -/
theorem acceptedCommandCompletes : Obligations.AcceptedCommandCompletes := by
  intro s hb
  generalize hl : s.sched = l
  induction l generalizing s with
  | nil =>
    obtain ⟨t, ht⟩ := step_next s
    refine ⟨1, t, Nat.le_refl 1, run_of_step ht 0, ?_⟩
    rw [step_of_sched_nil hl] at ht
    obtain ⟨hidle, hdone, hcmd⟩ := engineTurn_completes hb ht
    exact ⟨hidle, fun _ => ⟨hdone, hcmd⟩⟩
  | cons e rest ih =>
    obtain ⟨t, ht⟩ := step_next s
    rcases step_of_busy_cases hb ht with ⟨hidle, hdone, hcmd⟩ | ⟨hidle, r, hr, hreset⟩ | ⟨hbusy, hcmd, e', he⟩
    · exact ⟨1, t, by simp, run_of_step ht 0, hidle, fun _ => ⟨hdone, hcmd⟩⟩
    · refine ⟨1, t, by simp, run_of_step ht 0, hidle, fun hnone => ?_⟩
      rw [hnone r (hl ▸ hr)] at hreset
      cases hreset
    · obtain ⟨-, hrest⟩ := List.cons.inj (hl.symm.trans he)
      obtain ⟨n, u, hn, hrun, hidle, hend⟩ := ih t hbusy hrest.symm
      refine ⟨n + 1, u, Nat.succ_le_succ hn, (run_of_step ht n).trans hrun, hidle, fun hnone => ?_⟩
      rw [← hcmd]
      exact hend fun e he => hnone e (List.mem_cons_of_mem _ he)

end Sys2Proof.Machine
end
